-- ==== Sys2Proof/Word.lean ====
section
/-! DEFINITION. The two word types of the CORE: `Byte` for registers, memory cells and bus data (`XLEN8`, `DLEN`) and `Word` for PC, SP, pair views and bus addresses (`XLEN16`, `ALEN`), 00_scope.md rule R5. -/

namespace Sys2Proof

/-- An 8-bit value: a register, one memory byte, one bus transaction's data (R5). -/
abbrev Byte := BitVec 8

/-- A 16-bit value: PC, SP, a pair view, a bus address (R5). -/
abbrev Word := BitVec 16

end Sys2Proof
end

