-- ==== Sys2Proof/Syntax.lean ====
section
/-! DEFINITION. The instructions as syntax: one constructor of `Instr` per row of spec/opcode_table.json (30_encoding.md rules R85, R86), and the entries of the two opcode tables that decoding looks up. -/

namespace Sys2Proof

/-- An instruction with its operands, one constructor per row of the opcode table. -/
inductive Instr where
  /-- 0x01: LD BC,d16 (R120). -/
  | ldBcD16 (v : Word)
  /-- 0x11: LD DE,d16 (R121). -/
  | ldDeD16 (v : Word)
  /-- 0x21: LD HL,d16 (R122). -/
  | ldHlD16 (v : Word)
  /-- 0x31: LD SP,d16 (R123). -/
  | ldSpD16 (v : Word)
  /-- 0x02: LD (BC),A (R140). -/
  | ldIndBcA
  /-- 0x12: LD (DE),A (R141). -/
  | ldIndDeA
  /-- 0x32: LD (HL-),A (R142). -/
  | ldIndHlDecA
  /-- 0x06: LD B,d8 (R124). -/
  | ldBD8 (v : Byte)
  /-- 0x0E: LD C,d8 (R125). -/
  | ldCD8 (v : Byte)
  /-- 0x16: LD D,d8 (R126). -/
  | ldDD8 (v : Byte)
  /-- 0x1E: LD E,d8 (R127). -/
  | ldED8 (v : Byte)
  /-- 0x26: LD H,d8 (R128). -/
  | ldHD8 (v : Byte)
  /-- 0x2E: LD L,d8 (R129). -/
  | ldLD8 (v : Byte)
  /-- 0x3E: LD A,d8 (R130). -/
  | ldAD8 (v : Byte)
  /-- 0x04: INC B (R151). -/
  | incB
  /-- 0x0C: INC C (R152). -/
  | incC
  /-- 0x14: INC D (R153). -/
  | incD
  /-- 0x1C: INC E (R154). -/
  | incE
  /-- 0x24: INC H (R155). -/
  | incH
  /-- 0x2C: INC L (R156). -/
  | incL
  /-- 0x3C: INC A (R157). -/
  | incA
  /-- 0xAF: XOR A (R158). -/
  | xorA
  /-- 0x20: JR NZ,e8 (R170). -/
  | jrNzE8 (e : Byte)
  /-- 0xCB op2: the escape entry of the primary table (R175). -/
  | prefixCb (op2 : Byte)
  /-- 0xE0: LDH (a8),A (R143). -/
  | ldhA8A (n : Byte)
  /-- 0xE2: LD (C),A (R144). -/
  | ldIndCA
  /-- 0xCB 0x7C: BIT 7,H (R176). -/
  | bit7H
  deriving DecidableEq, Repr

/-- An entry of the primary opcode table (R85), without its operands. -/
inductive Op where
  | ldBcD16 | ldDeD16 | ldHlD16 | ldSpD16
  | ldIndBcA | ldIndDeA | ldIndHlDecA
  | ldBD8 | ldCD8 | ldDD8 | ldED8 | ldHD8 | ldLD8 | ldAD8
  | incB | incC | incD | incE | incH | incL | incA
  | xorA | jrNzE8 | prefixCb | ldhA8A | ldIndCA
  deriving DecidableEq, Repr

/-- An entry of the secondary opcode table (R86). -/
inductive Op2 where
  | bit7H
  deriving DecidableEq, Repr

/-- The instruction formats of R81. -/
inductive Format where
  | op | opD8 | opA8 | opE8 | opD16 | cbOp
  deriving DecidableEq, Repr

/-- The format of each primary entry (R85). -/
def Op.format : Op → Format
  | .ldBcD16 | .ldDeD16 | .ldHlD16 | .ldSpD16 => .opD16
  | .ldIndBcA | .ldIndDeA | .ldIndHlDecA | .ldIndCA => .op
  | .ldBD8 | .ldCD8 | .ldDD8 | .ldED8 | .ldHD8 | .ldLD8 | .ldAD8 => .opD8
  | .incB | .incC | .incD | .incE | .incH | .incL | .incA | .xorA => .op
  | .jrNzE8 => .opE8
  | .prefixCb => .cbOp
  | .ldhA8A => .opA8

/-- The length in bytes of each format (R81). -/
def Format.length : Format → Nat
  | .op => 1
  | .opD8 | .opA8 | .opE8 | .cbOp => 2
  | .opD16 => 3

/-- The primary table entry an instruction is reached through; BIT 7,H is reached through the escape (R90). -/
def Instr.op : Instr → Op
  | .ldBcD16 _ => .ldBcD16
  | .ldDeD16 _ => .ldDeD16
  | .ldHlD16 _ => .ldHlD16
  | .ldSpD16 _ => .ldSpD16
  | .ldIndBcA => .ldIndBcA
  | .ldIndDeA => .ldIndDeA
  | .ldIndHlDecA => .ldIndHlDecA
  | .ldBD8 _ => .ldBD8
  | .ldCD8 _ => .ldCD8
  | .ldDD8 _ => .ldDD8
  | .ldED8 _ => .ldED8
  | .ldHD8 _ => .ldHD8
  | .ldLD8 _ => .ldLD8
  | .ldAD8 _ => .ldAD8
  | .incB => .incB
  | .incC => .incC
  | .incD => .incD
  | .incE => .incE
  | .incH => .incH
  | .incL => .incL
  | .incA => .incA
  | .xorA => .xorA
  | .jrNzE8 _ => .jrNzE8
  | .prefixCb _ => .prefixCb
  | .ldhA8A _ => .ldhA8A
  | .ldIndCA => .ldIndCA
  | .bit7H => .prefixCb

/-- An instruction's length in bytes: a property of its table entry (R80, R90). -/
def Instr.length (i : Instr) : Nat := i.op.format.length

end Sys2Proof
end

