-- ==== Sys2Proof/WellFormed.lean ====
section
/-! DEFINITION. Which terms of `Instr` are instructions. Operand widths are in the types; the one check left is that the escape with secondary opcode 0x7C is written as BIT 7,H, the secondary table's entry (30_encoding.md rules R86, R90, R95). -/

namespace Sys2Proof

/-- The escape's operand is a secondary opcode that the secondary table does not register; the registered one has
its own constructor (R86, R95). -/
def Instr.wf : Instr → Bool
  | .prefixCb op2 => op2 != 0x7C#8
  | _ => true

end Sys2Proof
end

