-- ==== Sys2Proof/Decode.lean ====
section
/-! DEFINITION. The two opcode tables (30_encoding.md rules R85, R86), the decoder from bytes, the encoder, the byte-order helpers (20_memory.md rule R56), and the reading of a word numbered as spec/opcode_table.json numbers it (rule R95). -/

namespace Sys2Proof

/-- `(high << 8) | low` (R56, R83). -/
def joinBytes (hi lo : Byte) : Word := (hi.setWidth 16 <<< 8) ||| lo.setWidth 16

/-- `v[15:8]`. -/
def hiByte (v : Word) : Byte := (v >>> 8).setWidth 8

/-- `v[7:0]`. -/
def loByte (v : Word) : Byte := v.setWidth 8

/-- `ESCAPE_OPCODE` (R91). -/
def escapeOpcode : Byte := 0xCB#8

/-- `PRIMARY_TABLE` with its default contents: 26 registered opcodes (R85). -/
def primaryTable : List (Byte × Op) :=
  [(0x01#8, .ldBcD16), (0x11#8, .ldDeD16), (0x21#8, .ldHlD16), (0x31#8, .ldSpD16)] ++
  [(0x02#8, .ldIndBcA), (0x12#8, .ldIndDeA), (0x32#8, .ldIndHlDecA)] ++
  [(0x06#8, .ldBD8), (0x0E#8, .ldCD8), (0x16#8, .ldDD8), (0x1E#8, .ldED8), (0x26#8, .ldHD8), (0x2E#8, .ldLD8),
    (0x3E#8, .ldAD8)] ++
  [(0x04#8, .incB), (0x0C#8, .incC), (0x14#8, .incD), (0x1C#8, .incE), (0x24#8, .incH), (0x2C#8, .incL),
    (0x3C#8, .incA)] ++
  [(0xAF#8, .xorA), (0x20#8, .jrNzE8), (escapeOpcode, .prefixCb), (0xE0#8, .ldhA8A), (0xE2#8, .ldIndCA)]

/-- `SECONDARY_TABLE` with its default contents: one entry (R86). -/
def secondaryTable : List (Byte × Op2) := [(0x7C#8, .bit7H)]

/-- Resolve in the primary table (R105); none for an unregistered opcode (R88). -/
def primaryEntry (op : Byte) : Option Op := primaryTable.lookup op

/-- Resolve in the secondary table (R106); none for an unregistered secondary opcode (R88). -/
def secondaryEntry (op2 : Byte) : Option Op2 := secondaryTable.lookup op2

/-- Why a byte sequence is no instruction: no byte, an unregistered primary opcode (R88), or too few bytes for the
entry's format (R81). An unregistered SECONDARY opcode is an instruction here, the PREFIX CB entry whose own Init
raises the error (R175). -/
inductive DecodeError where
  | empty
  | unknownPrimary (op : Byte)
  | truncated
  deriving DecidableEq, Repr

/-- Take a one-byte operand (formats OP_D8, OP_A8, OP_E8, CB_OP of R81). -/
def take8 (mk : Byte → Instr) : List Byte → Except DecodeError (Instr × List Byte)
  | b :: rest => .ok (mk b, rest)
  | [] => .error .truncated

/-- Take a two-byte operand, low byte first (format OP_D16 of R81; R56). -/
def take16 (mk : Word → Instr) : List Byte → Except DecodeError (Instr × List Byte)
  | lo :: hi :: rest => .ok (mk (joinBytes hi lo), rest)
  | _ => .error .truncated

/-- The instruction of an escaped byte: the secondary table's entry where there is one, else the escape entry itself
with the byte it could not resolve (R90, R175). -/
def escaped (op2 : Byte) : Instr :=
  match secondaryEntry op2 with
  | some .bit7H => .bit7H
  | none => .prefixCb op2

/-- The operands of each primary entry, read from the bytes after the opcode (R81, R83, R90). -/
def decodeEntry (o : Op) (rest : List Byte) : Except DecodeError (Instr × List Byte) :=
  match o with
  | .ldBcD16 => take16 .ldBcD16 rest
  | .ldDeD16 => take16 .ldDeD16 rest
  | .ldHlD16 => take16 .ldHlD16 rest
  | .ldSpD16 => take16 .ldSpD16 rest
  | .ldIndBcA => .ok (.ldIndBcA, rest)
  | .ldIndDeA => .ok (.ldIndDeA, rest)
  | .ldIndHlDecA => .ok (.ldIndHlDecA, rest)
  | .ldBD8 => take8 .ldBD8 rest
  | .ldCD8 => take8 .ldCD8 rest
  | .ldDD8 => take8 .ldDD8 rest
  | .ldED8 => take8 .ldED8 rest
  | .ldHD8 => take8 .ldHD8 rest
  | .ldLD8 => take8 .ldLD8 rest
  | .ldAD8 => take8 .ldAD8 rest
  | .incB => .ok (.incB, rest)
  | .incC => .ok (.incC, rest)
  | .incD => .ok (.incD, rest)
  | .incE => .ok (.incE, rest)
  | .incH => .ok (.incH, rest)
  | .incL => .ok (.incL, rest)
  | .incA => .ok (.incA, rest)
  | .xorA => .ok (.xorA, rest)
  | .jrNzE8 => take8 .jrNzE8 rest
  | .prefixCb => take8 escaped rest
  | .ldhA8A => take8 .ldhA8A rest
  | .ldIndCA => .ok (.ldIndCA, rest)

/-- Decode the first instruction of a byte sequence, byte 0 at the lowest address, and return the bytes after it
(R81, R90). -/
def decode : List Byte → Except DecodeError (Instr × List Byte)
  | [] => .error .empty
  | op :: rest =>
    match primaryEntry op with
    | none => .error (.unknownPrimary op)
    | some o => decodeEntry o rest

/-- The bytes of an instruction in address order (R81, R85, R86). -/
def encode : Instr → List Byte
  | .ldBcD16 v => [0x01#8, loByte v, hiByte v]
  | .ldDeD16 v => [0x11#8, loByte v, hiByte v]
  | .ldHlD16 v => [0x21#8, loByte v, hiByte v]
  | .ldSpD16 v => [0x31#8, loByte v, hiByte v]
  | .ldIndBcA => [0x02#8]
  | .ldIndDeA => [0x12#8]
  | .ldIndHlDecA => [0x32#8]
  | .ldBD8 v => [0x06#8, v]
  | .ldCD8 v => [0x0E#8, v]
  | .ldDD8 v => [0x16#8, v]
  | .ldED8 v => [0x1E#8, v]
  | .ldHD8 v => [0x26#8, v]
  | .ldLD8 v => [0x2E#8, v]
  | .ldAD8 v => [0x3E#8, v]
  | .incB => [0x04#8]
  | .incC => [0x0C#8]
  | .incD => [0x14#8]
  | .incE => [0x1C#8]
  | .incH => [0x24#8]
  | .incL => [0x2C#8]
  | .incA => [0x3C#8]
  | .xorA => [0xAF#8]
  | .jrNzE8 e => [0x20#8, e]
  | .prefixCb op2 => [escapeOpcode, op2]
  | .ldhA8A n => [0xE0#8, n]
  | .ldIndCA => [0xE2#8]
  | .bit7H => [escapeOpcode, 0x7C#8]

/-- The three bytes, in address order, of the word `w` of `nbits` bits. Byte 0 is the low byte, as the table's
one-byte rows number it; the table's one two-byte row writes byte 0 on the left, 0xCB7C (R95; DEDUCED, log entry 8).
Bytes above `nbits` are zero. -/
def tableBytes (nbits w : Nat) : List Byte :=
  let v := w % 2 ^ nbits
  if nbits = 16 ∧ v = 0xCB7C then [escapeOpcode, 0x7C#8, 0#8]
  else [BitVec.ofNat 8 v, BitVec.ofNat 8 (v / 256), BitVec.ofNat 8 (v / 65536)]

/-- The instruction the decoder reads from the word `w` of `nbits` bits; none where it refuses. -/
def decodeTableWord (nbits w : Nat) : Option Instr :=
  match decode (tableBytes nbits w) with
  | .ok (i, _) => some i
  | .error _ => none

end Sys2Proof
end

