-- ==== Sys2Proof/Config.lean ====
section
/-! DEFINITION. What is fixed for one machine: the parameters of 00_scope.md rule R5 that the spec leaves open, as plain data, and the one uninterpreted parameter, the I/O write hook. -/

namespace Sys2Proof.Machine

open Sys2Proof

/-- `INC_H_RULE`: how the 8-bit increment computes its half-carry directive (R5, R150, D12). -/
inductive IncHRule where
  | zeroResult
  | nibbleCarry
  deriving DecidableEq, Repr

/-- `BIT_NH_RULE`: what the bit test does to N and H (R5, R176, D13). -/
inductive BitNhRule where
  | untouched
  | n0h1
  deriving DecidableEq, Repr

/-- A byte store in canonical form: offset and byte, offsets strictly rising, no entry equal to what an unlisted
offset reads as. The form is `Memory.wf`, the operations are in Machine/Ops.lean. -/
abbrev Memory := List Host.Cell

/-- A read-only image: its length in bytes and its bytes (R5 `BOOT_IMAGE`, `CART_IMAGE`; D21). -/
structure Image where
  len   : Nat
  cells : Memory
  deriving DecidableEq, Repr

/-- The peripheral state the hook owns. PRESUMED nothing of its shape: a natural number names a state; what a name
stands for is the hook's (10_state.md R30; log entry 3). -/
abbrev Periph := Nat

/-- `CYCLES`, one entry per row of the table of 70_reset_and_hazards.md R226 ("a model should take the table as
configuration"). -/
structure CycleTable where
  /-- LD BC,d16. -/
  ldBc       : Nat
  /-- LD DE,d16; LD HL,d16; LD SP,d16. -/
  ldPair     : Nat
  /-- LD r,d8. -/
  ldReg      : Nat
  /-- LD (BC),A; LD (DE),A; LD (HL-),A. -/
  storePair  : Nat
  /-- LDH (a8),A. -/
  ldh        : Nat
  /-- LD (C),A. -/
  storeC     : Nat
  /-- INC r. -/
  inc        : Nat
  /-- XOR A. -/
  xorA       : Nat
  /-- JR NZ,e8, taken (R171). -/
  jrTaken    : Nat
  /-- JR NZ,e8, not taken (R171). -/
  jrNotTaken : Nat
  /-- BIT 7,H, prefix byte included. -/
  bit        : Nat
  deriving DecidableEq, Repr

/-- The parameters of R5 that are left open as arguments. None changes while the machine runs. -/
structure Params where
  bootImage    : Image
  cartImage    : Image
  /-- `IO_RECOGNISED`: the I/O addresses on which the hook does not fail (R67). -/
  ioRecognised : List Word
  incHRule     : IncHRule
  bitNhRule    : BitNhRule
  /-- `CYCLES` (R226). -/
  costs        : CycleTable
  /-- `PERIPH_RESET` (R34). -/
  periphReset  : Periph
  deriving DecidableEq, Repr

end Sys2Proof.Machine

namespace Sys2Proof

/-- `IoHook` on a recognised address: (absolute address, byte, peripheral state) to the new peripheral state
(20_memory.md R67). The decode is outside the CORE (R69), so nothing constrains it (log entry 4). -/
opaque Config.ioHook : Word → Byte → Machine.Periph → Machine.Periph

end Sys2Proof
end

