-- ==== Sys2Proof/Machine/Defaults.lean ====
section
/-! DEFINITION. The parameter values of the machine that `State.reset` describes: the spec's defaults where it names one, log entries 2 and 3 where it leaves the argument open. -/

namespace Sys2Proof.Machine

open Sys2Proof

/-- An image of the given length whose every byte is 0x00. -/
def blankImage (len : Nat) : Image := { len := len, cells := [] }

/-- `CYCLES` with its default contents, the table of R226 (D5 for all but 0x01 and 0x20). -/
def defaultCosts : CycleTable where
  ldBc := 12
  ldPair := 12
  ldReg := 8
  storePair := 8
  ldh := 12
  storeC := 8
  inc := 4
  xorA := 4
  jrTaken := 12
  jrNotTaken := 8
  bit := 8

/-- `BOOT_LEN` 256, `CYCLES`, `INC_H_RULE` zero_result and `BIT_NH_RULE` untouched are the spec's defaults (R5). DESIGN CHOICE
(log entries 2, 3): image bytes 0x00, `CART_LEN` 0x4000, only 0xFF25 recognised, `PERIPH_RESET` named 0. -/
def defaultParams : Params where
  bootImage := blankImage 256
  cartImage := blankImage 0x4000
  ioRecognised := [0xFF25#16]
  incHRule := .zeroResult
  bitNhRule := .untouched
  costs := defaultCosts
  periphReset := 0

end Sys2Proof.Machine
end

