-- ==== Sys2Proof/Machine/State.lean ====
section
/-! DEFINITION. The machine's state as plain data (10_state.md rules R10 to R34), the fatal errors and their record (60_exceptions.md rules R180 to R182), and the state after reset (rules R34, R210). -/

namespace Sys2Proof.Machine

open Sys2Proof

/-- Whether a bus transaction reads or writes (R73, R181). -/
inductive Access where
  | read
  | write
  deriving DecidableEq, Repr

/-- Which opcode table a lookup failed in (R181). -/
inductive OpTable where
  | primary
  | secondary
  deriving DecidableEq, Repr

/-- The four fatal errors, each with the information the fault record holds (R180, R181). -/
inductive FatalError where
  /-- Unmapped or out-of-range address; the full bus address (R184). -/
  | addressing (addr : Word) (access : Access)
  /-- A write below 0x4000 (R185). -/
  | writeProtected (addr : Word)
  /-- An unregistered opcode (R186). -/
  | unknownOpcode (table : OpTable) (op : Byte)
  /-- An I/O write that the hook does not recognise (R187). -/
  | unknownRegister (addr : Word) (v : Byte)
  deriving DecidableEq, Repr

/-- The fault record (R181): the error with its information, and PC0. Kind and code are functions of the error
(`FatalError.code`, Machine/Ops.lean). -/
structure FaultRecord where
  error : FatalError
  pc    : Word
  deriving DecidableEq, Repr

/-- `run` (R29). -/
inductive RunState where
  | running
  | faulted
  deriving DecidableEq, Repr

/-- The whole state of the CORE. -/
structure State where
  /-- The eight 8-bit registers (R10). -/
  a : Byte
  b : Byte
  c : Byte
  d : Byte
  e : Byte
  /-- The flags register; all eight bits are storage (R12, R20, R24). -/
  f : Byte
  h : Byte
  l : Byte
  /-- Program counter (R16). -/
  pc : Word
  /-- Stack pointer (R19). -/
  sp : Word
  /-- `boot_en`: the boot overlay is active (R26). -/
  bootEn : Bool
  /-- Video RAM, keyed by region-relative offset 0 to 0x1FFF (R27). -/
  vram : Memory
  /-- The I/O register block, keyed by region-relative offset 0 to 0x7F (R27). -/
  io : Memory
  /-- The cycle counter, unbounded (R28). -/
  cycles : Nat
  run : RunState
  /-- The fault record, absent while no step has faulted (R29). -/
  fault : Option FaultRecord
  /-- The peripheral state, changed only by the hook (R30). -/
  periph : Periph
  /-- The parameters of R5, changed by no step (log entry 1). -/
  params : Params
  deriving DecidableEq, Repr

/-- Why `step` has no next state. -/
inductive Fault where
  /-- Raised by `step` alone, when `run` is FAULTED: "In FAULTED there is no step" (R101). Safe: the machine has no
  transition there, and every fatal error itself is a next state with its record. -/
  | halted
  deriving DecidableEq, Repr

/-- Why the model gives an instruction no meaning. -/
inductive Refusal where
  /-- Raised by an arm of `exec` whose instruction has no meaning yet; no arm does. Safe: nothing is claimed. -/
  | notModelled (mnemonic : String)
  deriving DecidableEq, Repr

/-- Every piece of state at the value of R34, with the given parameters (R210). -/
def State.resetWith (p : Params) : State where
  a := 0#8
  b := 0#8
  c := 0#8
  d := 0#8
  e := 0#8
  f := 0#8
  h := 0#8
  l := 0#8
  pc := 0#16
  sp := 0#16
  bootEn := true
  vram := []
  io := []
  cycles := 0
  run := .running
  fault := none
  periph := p.periphReset
  params := p

/-- The machine right after reset (R34, R210), with the parameters of `defaultParams`. -/
def State.reset : State := State.resetWith defaultParams

end Sys2Proof.Machine
end

