-- ==== Sys2Proof/Machine/Flags.lean ====
section
/-! DEFINITION. The four flags of F (10_state.md rules R20 to R22), the three-valued directives and their commit (40_engine.md rules R107, R108), and every flag computation the instructions use (43_alu.md rules R150, R158; 45_prefixed_bit.md rule R176). -/

namespace Sys2Proof.Machine

open Sys2Proof

/-- Zero, Subtract, Half-carry, Carry (R20). -/
inductive Flag where
  | z | n | h | c
  deriving DecidableEq, Repr

/-- The bit of F that holds each flag (R20). -/
def Flag.pos : Flag → Nat
  | .z => 7
  | .n => 6
  | .h => 5
  | .c => 4

/-- A flag getter tests one bit of F (R21). -/
def getFlag (f : Byte) (k : Flag) : Bool := f.getLsbD k.pos

/-- A flag setter: `F <- (F & ~(1 << p)) | (b << p)` (R22). -/
def setFlag (f : Byte) (k : Flag) (b : Bool) : Byte :=
  (f &&& ~~~(1#8 <<< k.pos)) ||| ((if b then 1#8 else 0#8) <<< k.pos)

/-- The four flag directives of a step, `none` for `unset` (R92, R107). -/
structure Directives where
  dZ : Option Bool
  dN : Option Bool
  dH : Option Bool
  dC : Option Bool
  deriving DecidableEq, Repr

/-- All four `unset`: the directives at the start of Execute (R107). -/
def Directives.unset : Directives := ⟨none, none, none, none⟩

/-- One directive of CommitFlags: write the flag if the directive is not `unset` (R108). -/
def commitOne (f : Byte) (k : Flag) : Option Bool → Byte
  | none => f
  | some b => setFlag f k b

/-- CommitFlags on the value of F (R108). -/
def commitFlags (ds : Directives) (f : Byte) : Byte :=
  commitOne (commitOne (commitOne (commitOne f .z ds.dZ) .n ds.dN) .h ds.dH) .c ds.dC

/-- `IncHalfCarry(old, res)` (R150, D12). -/
def incHalfCarry (rule : IncHRule) (old res : Byte) : Bool :=
  match rule with
  | .zeroResult => res == 0#8
  | .nibbleCarry => (old &&& 0x0F#8) == 0x0F#8

/-- The directives of INC r: Z from the result, N cleared, H by the rule, C unset (R150). -/
def incDirectives (rule : IncHRule) (old res : Byte) : Directives where
  dZ := some (res == 0#8)
  dN := some false
  dH := some (incHalfCarry rule old res)
  dC := none

/-- The directives of XOR A: Z from the result, N, H and C cleared (R158). -/
def xorDirectives (res : Byte) : Directives where
  dZ := some (res == 0#8)
  dN := some false
  dH := some false
  dC := some false

/-- The directives of the bit test: Z the inverse of the bit, N and H by the rule, C unset (R176, D13). -/
def bitDirectives (rule : BitNhRule) (bit : Bool) : Directives where
  dZ := some (!bit)
  dN := match rule with
    | .untouched => none
    | .n0h1 => some false
  dH := match rule with
    | .untouched => none
    | .n0h1 => some true
  dC := none

end Sys2Proof.Machine
end

