-- ==== Sys2Proof/Machine/Ops.lean ====
section
/-! DEFINITION. The named operations every instruction is written with: byte stores, the register file and its pair views (10_state.md rules R10 to R19), the bus (20_memory.md rules R41 to R55, R67), raising a fatal error (60_exceptions.md rule R181, 00_scope.md rule R8), and the frame of Execute, CommitFlags and Advance (40_engine.md rules R107 to R110). -/

namespace Sys2Proof.Machine

open Sys2Proof

/-! Byte stores. -/

/-- What an offset that no entry lists reads as: the reset value of `vram` and `io` (R34), and the byte of an image
that nothing was loaded into (log entry 2). -/
def unlisted : Byte := 0x00#8

/-- The canonical form of a byte store: offsets strictly rising, no entry equal to the unlisted byte. -/
abbrev Memory.wf (m : Memory) : Prop :=
  m.Pairwise (fun x y => x.1 < y.1) ∧ ∀ cell ∈ m, cell.2 ≠ unlisted

/-- Every listed offset lies below `n`. -/
abbrev Memory.within (n : Nat) (m : Memory) : Prop := ∀ cell ∈ m, cell.1 < n

/-- The byte at an offset. -/
def Memory.read (m : Memory) (off : Nat) : Byte :=
  match m with
  | [] => unlisted
  | cell :: rest => if cell.1 = off then cell.2 else Memory.read rest off

/-- Drop the entry of an offset. -/
def Memory.erase (m : Memory) (off : Nat) : Memory := m.filter (fun cell => cell.1 != off)

/-- Put an entry before the first one with a higher offset. -/
def Memory.place (m : Memory) (off : Nat) (v : Byte) : Memory :=
  match m with
  | [] => [(off, v)]
  | cell :: rest => if off < cell.1 then (off, v) :: cell :: rest else cell :: Memory.place rest off v

/-- Replace the byte at an offset, in canonical form. -/
def Memory.write (m : Memory) (off : Nat) (v : Byte) : Memory :=
  if v = unlisted then Memory.erase m off else Memory.place (Memory.erase m off) off v

/-! The register file. -/

/-- The eight 8-bit registers (R10). -/
inductive Reg8 where
  | a | b | c | d | e | f | h | l
  deriving DecidableEq, Repr

/-- The four pair views (R13). -/
inductive Pair where
  | af | bc | de | hl
  deriving DecidableEq, Repr

/-- Read a register (R10). -/
def State.reg (s : State) : Reg8 → Byte
  | .a => s.a
  | .b => s.b
  | .c => s.c
  | .d => s.d
  | .e => s.e
  | .f => s.f
  | .h => s.h
  | .l => s.l

/-- Store a byte in a register (R10, R12). -/
def State.setReg (s : State) (r : Reg8) (v : Byte) : State :=
  match r with
  | .a => { s with a := v }
  | .b => { s with b := v }
  | .c => { s with c := v }
  | .d => { s with d := v }
  | .e => { s with e := v }
  | .f => { s with f := v }
  | .h => { s with h := v }
  | .l => { s with l := v }

/-- Write any value to a register: it is masked to its low 8 bits (R11). -/
def State.writeReg (s : State) (r : Reg8) (v : Nat) : State := s.setReg r (BitVec.ofNat 8 v)

/-- The register a pair names first (R13). -/
def Pair.high : Pair → Reg8
  | .af => .a
  | .bc => .b
  | .de => .d
  | .hl => .h

/-- The register a pair names second (R13). -/
def Pair.low : Pair → Reg8
  | .af => .f
  | .bc => .c
  | .de => .e
  | .hl => .l

/-- Read a pair view, `(high << 8) | low` (R13). -/
def State.pair (s : State) (p : Pair) : Word := joinBytes (s.reg p.high) (s.reg p.low)

/-- Write a 16-bit value to a pair: both halves (R14). -/
def State.setPair (s : State) (p : Pair) (v : Word) : State :=
  (s.setReg p.high (hiByte v)).setReg p.low (loByte v)

/-- Write any value to a pair: each half is masked (R14). -/
def State.writePair (s : State) (p : Pair) (v : Nat) : State :=
  (s.writeReg p.high (v / 256)).writeReg p.low v

/-- Write any value to PC: masked to 16 bits (R16). -/
def State.writePc (s : State) (v : Nat) : State := { s with pc := BitVec.ofNat 16 v }

/-- Write any value to SP: masked to 16 bits (R19). -/
def State.writeSp (s : State) (v : Nat) : State := { s with sp := BitVec.ofNat 16 v }

/-- Read a flag: F.Z, F.N, F.H, F.C (R21). -/
def State.flag (s : State) (k : Flag) : Bool := getFlag s.f k

/-- Set or clear one flag of F (R22). -/
def State.writeFlag (s : State) (k : Flag) (b : Bool) : State := { s with f := setFlag s.f k b }

/-! The bus. -/

/-- The four regions (R41). -/
inductive Region where
  | boot | cart | vram | io
  deriving DecidableEq, Repr

/-- `Select(addr)`: the first matching range test in priority order, with the region-relative offset (R43, R45). -/
def select (bootEn : Bool) (addr : Word) : Option (Region × Nat) :=
  if bootEn = true ∧ addr.toNat < 0x0100 then some (.boot, addr.toNat)
  else if addr.toNat < 0x4000 then some (.cart, addr.toNat)
  else if 0x8000 ≤ addr.toNat ∧ addr.toNat < 0xA000 then some (.vram, addr.toNat - 0x8000)
  else if 0xFF00 ≤ addr.toNat ∧ addr.toNat < 0xFF80 then some (.io, addr.toNat - 0xFF00)
  else none

/-- The byte of an image at an offset, none at or beyond its length (R42, R46). -/
def imageByte (im : Image) (off : Nat) : Option Byte :=
  if off < im.len then some (im.cells.read off) else none

/-- `MemRead(addr, 1)` (R50). -/
def memRead (s : State) (addr : Word) : Except FatalError Byte :=
  match select s.bootEn addr with
  | none => .error (.addressing addr .read)
  | some (.boot, off) =>
    match imageByte s.params.bootImage off with
    | none => .error (.addressing addr .read)
    | some v => .ok v
  | some (.cart, off) =>
    match imageByte s.params.cartImage off with
    | none => .error (.addressing addr .read)
    | some v => .ok v
  | some (.vram, off) => .ok (s.vram.read off)
  | some (.io, off) => .ok (s.io.read off)

/-- `IoHook(addr, v, periph)`: the new peripheral state, or none for `UnknownRegister`; failure depends on the address
alone (R67, R68). -/
def ioHook (p : Params) (addr : Word) (v : Byte) (periph : Periph) : Option Periph :=
  if p.ioRecognised.contains addr then some (Config.ioHook addr v periph) else none

/-- `MemWrite(addr, 1, v)` (R54, R55). -/
def memWrite (s : State) (addr : Word) (v : Byte) : Except FatalError State :=
  match select s.bootEn addr with
  | none => .error (.addressing addr .write)
  | some (.boot, _) => .error (.writeProtected addr)
  | some (.cart, _) => .error (.writeProtected addr)
  | some (.vram, off) => .ok { s with vram := s.vram.write off v }
  | some (.io, off) =>
    match ioHook s.params addr v s.periph with
    | none => .error (.unknownRegister addr v)
    | some q => .ok { s with periph := q, io := s.io.write off v }

/-! Fatal errors. -/

/-- The numeric code of an error's kind (R182). -/
def FatalError.code : FatalError → Nat
  | .addressing _ _ => 1
  | .writeProtected _ => 2
  | .unknownOpcode _ _ => 3
  | .unknownRegister _ _ => 4

/-- `raise`: the state before the step with `run` = FAULTED and the record stored; everything else as it was
(R8, R181, R189). There is no return from it (R190). -/
def raise (s : State) (err : FatalError) : State :=
  { s with run := .faulted, fault := some { error := err, pc := s.pc } }

/-! The frame of a step's last three phases. -/

/-- What an instruction's Execute phase hands on: the working copy, the directives it assigned and the cost it
reports (R107, R109). -/
structure Effect where
  work : State
  dirs : Directives
  cost : Nat
  deriving DecidableEq, Repr

/-- The three outcomes of a step, for this machine. -/
abbrev Result := Host.Outcome State Fault Refusal

/-- The end of a step begun in state `s` (R110): a raise keeps `s` and records the error; otherwise CommitFlags (R108)
and Advance (R109) complete the working copy. -/
def conclude (s : State) : Except FatalError Effect → Result
  | .error err => .next (raise s err)
  | .ok r => .next { r.work with f := commitFlags r.dirs r.work.f, cycles := r.work.cycles + r.cost }

/-- Execute, CommitFlags and Advance of an instruction whose `len` bytes have been fetched: PC is past them when the
effect runs (R17, R110). -/
def perform (len : Nat) (eff : State → Except FatalError Effect) (s : State) : Result :=
  conclude s (eff { s with pc := s.pc + BitVec.ofNat 16 len })

/-! Placing code where a fetch finds it (the host's loading of images, 70_reset_and_hazards.md R213, and a harness's
preloading, R216). -/

/-- Load one byte into an image, extending its length if the offset lies beyond it. -/
def loadImage (im : Image) (off : Nat) (v : Byte) : Image where
  len := max im.len (off + 1)
  cells := im.cells.write off v

/-- Put a byte where a bus read of the address finds it; an unmapped address takes none. -/
def placeByte (s : State) (addr : Word) (v : Byte) : State :=
  match select s.bootEn addr with
  | none => s
  | some (.boot, off) => { s with params := { s.params with bootImage := loadImage s.params.bootImage off v } }
  | some (.cart, off) => { s with params := { s.params with cartImage := loadImage s.params.cartImage off v } }
  | some (.vram, off) => { s with vram := s.vram.write off v }
  | some (.io, off) => { s with io := s.io.write off v }

/-- Put bytes at ascending addresses. -/
def placeBytes (s : State) (addr : Word) : List Byte → State
  | [] => s
  | v :: rest => placeBytes (placeByte s addr v) (addr + 1#16) rest

end Sys2Proof.Machine
end

