-- ==== Sys2Proof/Machine/Cycles.lean ====
section
/-! DEFINITION. The cost each instruction reports in its Advance phase: its entry of the configured table `CYCLES` (70_reset_and_hazards.md rule R226). The prefix byte has no cost of its own (rules R175, R228), a step that faults adds nothing (D25). -/

namespace Sys2Proof.Machine

/-- LD rr,d16 into a pair; LD BC,d16 has a row of its own. -/
def costLdPair (p : Pair) (w : State) : Nat :=
  match p with
  | .bc => w.params.costs.ldBc
  | .af | .de | .hl => w.params.costs.ldPair
/-- LD SP,d16. -/
def costLdSp (w : State) : Nat := w.params.costs.ldPair
/-- LD r,d8. -/
def costLdReg (w : State) : Nat := w.params.costs.ldReg
/-- LD (BC),A; LD (DE),A; LD (HL-),A. -/
def costStorePair (w : State) : Nat := w.params.costs.storePair
/-- LDH (a8),A. -/
def costLdh (w : State) : Nat := w.params.costs.ldh
/-- LD (C),A. -/
def costStoreC (w : State) : Nat := w.params.costs.storeC
/-- INC r. -/
def costInc (w : State) : Nat := w.params.costs.inc
/-- XOR A. -/
def costXor (w : State) : Nat := w.params.costs.xorA
/-- JR NZ,e8 taken (R171). -/
def costJrTaken (w : State) : Nat := w.params.costs.jrTaken
/-- JR NZ,e8 not taken (R171). -/
def costJrNotTaken (w : State) : Nat := w.params.costs.jrNotTaken
/-- BIT 7,H, prefix byte included. -/
def costBit (w : State) : Nat := w.params.costs.bit

end Sys2Proof.Machine
end

