-- ==== Sys2Proof/Machine/Operands.lean ====
section
/-! DEFINITION. Every operand form that is not an immediate taken as it stands (30_encoding.md rules R83, R84): the sign extension of a displacement (00_scope.md rule R6), the port-style address, the address held in a pair, the jump target. -/

namespace Sys2Proof.Machine

open Sys2Proof

/-- `sext_16(b)`: b if b < 0x80, else b + 0xFF00 (R6, D14). -/
def sext16 (b : Byte) : Word :=
  if b.toNat < 0x80 then b.setWidth 16 else b.setWidth 16 + 0xFF00#16

/-- `0xFF00 + n`, the address of the two port-style stores (R83, R143, R144). -/
def portAddr (n : Byte) : Word := 0xFF00#16 + n.setWidth 16

/-- The address a pair holds, for `(BC)`, `(DE)` and `(HL-)` (R84). -/
def pairAddr (s : State) (p : Pair) : Word := s.pair p

/-- The target of a taken relative jump, from the PC after the operand fetch (R170). -/
def jumpTarget (pc : Word) (e : Byte) : Word := pc + sext16 e

end Sys2Proof.Machine
end

