-- ==== Sys2Proof/Machine/Alu.lean ====
section
/-! DEFINITION. The 8-bit increments and the accumulator self-XOR (43_alu.md rules R150 to R159): the Execute phase of each as `eff…`, its meaning as `exec…`. -/

namespace Sys2Proof.Machine

open Sys2Proof

/-- Execute of INC r (R150). -/
def effInc (r : Reg8) (w : State) : Except FatalError Effect :=
  let old := w.reg r
  let res := old + 1#8
  .ok ⟨w.setReg r res, incDirectives w.params.incHRule old res, costInc w⟩

/-- Execute of XOR A (R158). -/
def effXorA (w : State) : Except FatalError Effect :=
  let res := w.a ^^^ w.a
  .ok ⟨w.setReg .a res, xorDirectives res, costXor w⟩

/-- INC B (R151). -/
def execIncB (s : State) : Result := perform 1 (effInc .b) s
/-- INC C (R152). -/
def execIncC (s : State) : Result := perform 1 (effInc .c) s
/-- INC D (R153). -/
def execIncD (s : State) : Result := perform 1 (effInc .d) s
/-- INC E (R154). -/
def execIncE (s : State) : Result := perform 1 (effInc .e) s
/-- INC H (R155). -/
def execIncH (s : State) : Result := perform 1 (effInc .h) s
/-- INC L (R156). -/
def execIncL (s : State) : Result := perform 1 (effInc .l) s
/-- INC A (R157). -/
def execIncA (s : State) : Result := perform 1 (effInc .a) s
/-- XOR A (R158). -/
def execXorA (s : State) : Result := perform 1 effXorA s

end Sys2Proof.Machine
end

