-- ==== Sys2Proof/Machine/Jump.lean ====
section
/-! DEFINITION. The conditional relative jump (44_jump.md rules R170 to R172). -/

namespace Sys2Proof.Machine

open Sys2Proof

/-- Execute of JR NZ,e8, PC already past the displacement: taken when F.Z = 0; the cost depends on the outcome
(R170, R171). -/
def effJrNz (e : Byte) (w : State) : Except FatalError Effect :=
  if w.flag .z = false then .ok ⟨{ w with pc := jumpTarget w.pc e }, .unset, costJrTaken w⟩
  else .ok ⟨w, .unset, costJrNotTaken w⟩

/-- JR NZ,e8 (R170). -/
def execJrNzE8 (e : Byte) (s : State) : Result := perform 2 (effJrNz e) s

end Sys2Proof.Machine
end

