-- ==== Sys2Proof/Machine/LoadImmediate.lean ====
section
/-! DEFINITION. The immediate loads LD rr,d16 and LD r,d8 (41_load_immediate.md rules R120 to R132): the Execute phase of each as `eff…`, its meaning as `exec…`. -/

namespace Sys2Proof.Machine

open Sys2Proof

/-- Execute of LD rr,d16 into a pair: the immediate bit for bit, no directive (R120 to R122, R131). -/
def effLdPair (p : Pair) (v : Word) (w : State) : Except FatalError Effect :=
  .ok ⟨w.setPair p v, .unset, costLdPair p w⟩

/-- Execute of LD SP,d16 (R123, R131). -/
def effLdSp (v : Word) (w : State) : Except FatalError Effect :=
  .ok ⟨{ w with sp := v }, .unset, costLdSp w⟩

/-- Execute of LD r,d8: the immediate bit for bit, no directive (R124 to R132). -/
def effLdReg (r : Reg8) (v : Byte) (w : State) : Except FatalError Effect :=
  .ok ⟨w.setReg r v, .unset, costLdReg w⟩

/-- LD BC,d16 (R120). -/
def execLdBcD16 (v : Word) (s : State) : Result := perform 3 (effLdPair .bc v) s
/-- LD DE,d16 (R121). -/
def execLdDeD16 (v : Word) (s : State) : Result := perform 3 (effLdPair .de v) s
/-- LD HL,d16 (R122). -/
def execLdHlD16 (v : Word) (s : State) : Result := perform 3 (effLdPair .hl v) s
/-- LD SP,d16 (R123). -/
def execLdSpD16 (v : Word) (s : State) : Result := perform 3 (effLdSp v) s
/-- LD B,d8 (R124). -/
def execLdBD8 (v : Byte) (s : State) : Result := perform 2 (effLdReg .b v) s
/-- LD C,d8 (R125). -/
def execLdCD8 (v : Byte) (s : State) : Result := perform 2 (effLdReg .c v) s
/-- LD D,d8 (R126). -/
def execLdDD8 (v : Byte) (s : State) : Result := perform 2 (effLdReg .d v) s
/-- LD E,d8 (R127). -/
def execLdED8 (v : Byte) (s : State) : Result := perform 2 (effLdReg .e v) s
/-- LD H,d8 (R128). -/
def execLdHD8 (v : Byte) (s : State) : Result := perform 2 (effLdReg .h v) s
/-- LD L,d8 (R129). -/
def execLdLD8 (v : Byte) (s : State) : Result := perform 2 (effLdReg .l v) s
/-- LD A,d8 (R130). -/
def execLdAD8 (v : Byte) (s : State) : Result := perform 2 (effLdReg .a v) s

end Sys2Proof.Machine
end

