-- ==== Sys2Proof/Machine/PrefixedBit.lean ====
section
/-! DEFINITION. The escape entry and the secondary table's one instruction (45_prefixed_bit.md rules R175 to R177). -/

namespace Sys2Proof.Machine

open Sys2Proof

/-- Execute of BIT 7,H (R176). -/
def effBit7H (w : State) : Except FatalError Effect :=
  .ok ⟨w, bitDirectives w.params.bitNhRule (w.h.getLsbD 7), costBit w⟩

/-- Execute of a secondary table entry. -/
def effSecondary : Op2 → State → Except FatalError Effect
  | .bit7H => effBit7H

/-- Init and Execute of the escape entry once its secondary opcode is fetched: run the nested instruction's effect, or
raise for an unregistered secondary opcode (R175, R177). -/
def effPrefixCb (op2 : Byte) (w : State) : Except FatalError Effect :=
  match secondaryEntry op2 with
  | none => .error (.unknownOpcode .secondary op2)
  | some nested => effSecondary nested w

/-- PREFIX CB (R175). -/
def execPrefixCb (op2 : Byte) (s : State) : Result := perform 2 (effPrefixCb op2) s
/-- BIT 7,H (R176). -/
def execBit7H (s : State) : Result := perform 2 effBit7H s

end Sys2Proof.Machine
end

