-- ==== Sys2Proof/Machine/Store.lean ====
section
/-! DEFINITION. The stores from the accumulator (42_store.md rules R140 to R145): the Execute phase of each as `eff…`, its meaning as `exec…`. -/

namespace Sys2Proof.Machine

open Sys2Proof

/-- Execute of a store of A at an address: one `MemWrite`, no directive (R145). -/
def effStoreA (addr : Word) (cost : Nat) (w : State) : Except FatalError Effect :=
  match memWrite w addr w.a with
  | .error err => .error err
  | .ok t => .ok ⟨t, .unset, cost⟩

/-- Execute of LD (BC),A and LD (DE),A (R140, R141). -/
def effStorePair (p : Pair) (w : State) : Except FatalError Effect :=
  effStoreA (pairAddr w p) (costStorePair w) w

/-- Execute of LD (HL-),A: store at the old HL, then HL - 1 modulo 65536; a raise leaves HL (R142, D26). -/
def effStoreHlDec (w : State) : Except FatalError Effect :=
  match memWrite w (pairAddr w .hl) w.a with
  | .error err => .error err
  | .ok t => .ok ⟨t.setPair .hl (pairAddr w .hl - 1#16), .unset, costStorePair w⟩

/-- Execute of LDH (a8),A (R143). -/
def effStoreHigh (n : Byte) (w : State) : Except FatalError Effect :=
  effStoreA (portAddr n) (costLdh w) w

/-- Execute of LD (C),A (R144). -/
def effStoreC (w : State) : Except FatalError Effect :=
  effStoreA (portAddr w.c) (costStoreC w) w

/-- LD (BC),A (R140). -/
def execLdIndBcA (s : State) : Result := perform 1 (effStorePair .bc) s
/-- LD (DE),A (R141). -/
def execLdIndDeA (s : State) : Result := perform 1 (effStorePair .de) s
/-- LD (HL-),A (R142). -/
def execLdIndHlDecA (s : State) : Result := perform 1 effStoreHlDec s
/-- LDH (a8),A (R143). -/
def execLdhA8A (n : Byte) (s : State) : Result := perform 2 (effStoreHigh n) s
/-- LD (C),A (R144). -/
def execLdIndCA (s : State) : Result := perform 1 effStoreC s

end Sys2Proof.Machine
end

