-- ==== Sys2Proof/Machine/Dispatch.lean ====
section
/-! DEFINITION. The dispatch: one arm per constructor of `Instr`, each one direct call of its meaning. -/

namespace Sys2Proof.Machine

open Sys2Proof

def exec (i : Instr) (s : State) : Host.Outcome State Fault Refusal :=
  match i with
  | .ldBcD16 v => Sys2Proof.Machine.execLdBcD16 v s
  | .ldDeD16 v => Sys2Proof.Machine.execLdDeD16 v s
  | .ldHlD16 v => Sys2Proof.Machine.execLdHlD16 v s
  | .ldSpD16 v => Sys2Proof.Machine.execLdSpD16 v s
  | .ldIndBcA => Sys2Proof.Machine.execLdIndBcA s
  | .ldIndDeA => Sys2Proof.Machine.execLdIndDeA s
  | .ldIndHlDecA => Sys2Proof.Machine.execLdIndHlDecA s
  | .ldBD8 v => Sys2Proof.Machine.execLdBD8 v s
  | .ldCD8 v => Sys2Proof.Machine.execLdCD8 v s
  | .ldDD8 v => Sys2Proof.Machine.execLdDD8 v s
  | .ldED8 v => Sys2Proof.Machine.execLdED8 v s
  | .ldHD8 v => Sys2Proof.Machine.execLdHD8 v s
  | .ldLD8 v => Sys2Proof.Machine.execLdLD8 v s
  | .ldAD8 v => Sys2Proof.Machine.execLdAD8 v s
  | .incB => Sys2Proof.Machine.execIncB s
  | .incC => Sys2Proof.Machine.execIncC s
  | .incD => Sys2Proof.Machine.execIncD s
  | .incE => Sys2Proof.Machine.execIncE s
  | .incH => Sys2Proof.Machine.execIncH s
  | .incL => Sys2Proof.Machine.execIncL s
  | .incA => Sys2Proof.Machine.execIncA s
  | .xorA => Sys2Proof.Machine.execXorA s
  | .jrNzE8 e => Sys2Proof.Machine.execJrNzE8 e s
  | .prefixCb op2 => Sys2Proof.Machine.execPrefixCb op2 s
  | .ldhA8A n => Sys2Proof.Machine.execLdhA8A n s
  | .ldIndCA => Sys2Proof.Machine.execLdIndCA s
  | .bit7H => Sys2Proof.Machine.execBit7H s

end Sys2Proof.Machine
end

