-- ==== Sys2Proof/Machine/Fetch.lean ====
section
/-! DEFINITION. Fetching an instruction: the opcode, Resolve in the primary table, and the operand bytes in ascending address order, each a one-byte bus read routed on its own (40_engine.md rules R103 to R106, 20_memory.md rules R49, R57). -/

namespace Sys2Proof.Machine

open Sys2Proof

/-- Read `n` bytes at ascending addresses, modulo 65536; the first error stops (R103, R188). -/
def fetchBytes (s : State) (addr : Word) : Nat → Except FatalError (List Byte)
  | 0 => .ok []
  | n + 1 =>
    match memRead s addr with
    | .error err => .error err
    | .ok v =>
      match fetchBytes s (addr + 1#16) n with
      | .error err => .error err
      | .ok vs => .ok (v :: vs)

/-- The instruction at PC, or the first error its fetch raises: the opcode's address, then an unregistered primary
opcode, then the operand addresses in ascending order (R183, R188). -/
def fetchInstr (s : State) : Except FatalError Instr :=
  match memRead s s.pc with
  | .error err => .error err
  | .ok op =>
    match primaryEntry op with
    | none => .error (.unknownOpcode .primary op)
    | some o =>
      match fetchBytes s (s.pc + 1#16) (o.format.length - 1) with
      | .error err => .error err
      | .ok operands =>
        match decode (op :: operands) with
        | .error _ => .error (.unknownOpcode .primary op)
        | .ok (i, _) => .ok i

end Sys2Proof.Machine
end

