-- ==== Sys2Proof/Machine/Step.lean ====
section
/-! DEFINITION. One step of the machine (40_engine.md rules R101, R110), and the placing of an instruction where the next step fetches. -/

namespace Sys2Proof.Machine

open Sys2Proof

/-- `Step(S)`: not enabled in FAULTED (R101); a fetch or resolve error is raised (R8, R183); otherwise the fetched
instruction executes (R110). -/
def step (s : State) : Host.Outcome State Fault Refusal :=
  match s.run with
  | .faulted => .fault .halted
  | .running =>
    match fetchInstr s with
    | .error err => .next (raise s err)
    | .ok i => exec i s

/-- `s` with the instruction whose bits are `w` in the bytes that the next step fetches: the region PC selects, the boot
image after reset (R212, R213; log entry 9). -/
def State.withFetchWord (s : State) (nbits w : Nat) : State :=
  placeBytes s s.pc (tableBytes nbits w)

end Sys2Proof.Machine
end

