-- ==== Sys2Proof/Machine/BusPort.lean ====
section
/-! DEFINITION. The bus seen from outside the CPU: the one-request bus port (20_memory.md rule R73) and the multi-byte software interface offered to a harness (20_memory.md rules R58, R71). -/

namespace Sys2Proof.Machine

open Sys2Proof

/-- The cost a step reported: the port's `cycles_reported` (R73). -/
def cyclesReported (before after : State) : Nat := after.cycles - before.cycles

/-- One request of the bus port (R73). -/
structure BusRequest where
  kind  : Access
  addr  : Word
  wdata : Byte
  deriving DecidableEq, Repr

/-- The bus port's answer (R73). -/
inductive BusReply where
  | rdata (v : Byte)
  | ok
  | fault (err : FatalError)
  deriving DecidableEq, Repr

/-- Serve one request; a faulting one changes nothing (R50, R55, R73). -/
def busServe (s : State) (q : BusRequest) : BusReply × State :=
  match q.kind with
  | .read =>
    match memRead s q.addr with
    | .ok v => (.rdata v, s)
    | .error err => (.fault err, s)
  | .write =>
    match memWrite s q.addr q.wdata with
    | .ok t => (.ok, t)
    | .error err => (.fault err, s)

/-- What a multi-byte request answers; `refused` where its bytes do not all lie in the region the first address
selects, which the source leaves undefined (R58, U1). -/
inductive BusMany (α : Type) where
  | done (v : α)
  | raised (err : FatalError)
  | refused
  deriving DecidableEq, Repr

/-- The size of a region's store (R41). -/
def storeSize (s : State) : Region → Nat
  | .boot => s.params.bootImage.len
  | .cart => s.params.cartImage.len
  | .vram => 0x2000
  | .io => 0x80

/-- The region whose store holds the byte at an address: the selected one, where the offset is within its size
(R42, R43). -/
def regionAt (s : State) (addr : Nat) : Option Region :=
  if addr < 0x10000 then
    match select s.bootEn (BitVec.ofNat 16 addr) with
    | none => none
    | some (r, off) => if off < storeSize s r then some r else none
  else none

/-- All `n` bytes from `addr` lie in region `r`. -/
def oneRegion (s : State) (r : Region) (addr : Word) (n : Nat) : Bool :=
  (List.range n).all (fun k => regionAt s (addr.toNat + k) == some r)

/-- The requests served: one byte, which is exactly the bus transaction, or bytes that all lie in the region the first
address selects (R58). -/
def served (s : State) (r : Region) (addr : Word) (n : Nat) : Bool := n == 1 || oneRegion s r addr n

/-- One-byte writes at ascending addresses, the hook called once per byte (R58, R71): the error that stopped them, if
any, and the state after the writes that were made. -/
def writeBytes (s : State) (addr : Word) : List Byte → Option FatalError × State
  | [] => (none, s)
  | v :: rest =>
    match memWrite s addr v with
    | .error err => (some err, s)
    | .ok t => writeBytes t (addr + 1#16) rest

/-- `read(address, size)` (R58): the region is selected once, by the first address; where none is, the bus raises. -/
def busReadMany (s : State) (addr : Word) (size : Nat) : BusMany (List Byte) :=
  match select s.bootEn addr with
  | none => .raised (.addressing addr .read)
  | some (r, _) =>
    if served s r addr size then
      match fetchBytes s addr size with
      | .ok vs => .done vs
      | .error err => .raised err
    else .refused

/-- `write(address, bytes)` (R58): its answer and the state it leaves. -/
def busWriteMany (s : State) (addr : Word) (vs : List Byte) : BusMany Unit × State :=
  match select s.bootEn addr with
  | none => (.raised (.addressing addr .write), s)
  | some (r, _) =>
    if served s r addr vs.length then
      match writeBytes s addr vs with
      | (none, t) => (.done (), t)
      | (some err, t) => (.raised err, t)
    else (.refused, s)

end Sys2Proof.Machine
end

