-- ==== Sys2Proof/Machine/HostActions.lean ====
section
/-! DEFINITION. What the host can do and when (70_reset_and_hazards.md rules R211, R213, R216, R217): the effect of each action on the machine, and the session that says in which phase each is allowed. -/

namespace Sys2Proof.Machine

open Sys2Proof

/-! The effects. When each is allowed is `hostAct`'s. -/

/-- The effect of reset: every piece of state at its reset value, the parameters kept (R210, R211). -/
def hostReset (s : State) : State := State.resetWith s.params

/-- The effect of a change of `boot_en` (R26). -/
def hostSetBootEn (s : State) (v : Bool) : State := { s with bootEn := v }

/-- A whole image, byte 0 first (R213). -/
def imageOf (bytes : List Byte) : Image where
  len := bytes.length
  cells := (bytes.zipIdx.map (fun p => (p.2, p.1))).filter (fun cell => cell.2 != unlisted)

/-- What the host loads before reset is released: the images, the recognised set, and every other parameter of R5 that
is left open (R213, R216, D20). -/
structure HostLoad where
  boot         : List Byte
  cart         : List Byte
  ioRecognised : List Word
  incHRule     : IncHRule
  bitNhRule    : BitNhRule
  costs        : CycleTable
  periphReset  : Periph
  deriving DecidableEq, Repr

/-- The recognised addresses lie in the I/O block and contain 0xFF25 (R5, R67). -/
def HostLoad.legal (x : HostLoad) : Bool :=
  x.ioRecognised.all (fun addr => decide (0xFF00 ≤ addr.toNat) && decide (addr.toNat < 0xFF80)) &&
    x.ioRecognised.contains 0xFF25#16

/-- The parameters a load sets. -/
def HostLoad.params (x : HostLoad) : Params where
  bootImage := imageOf x.boot
  cartImage := imageOf x.cart
  ioRecognised := x.ioRecognised
  incHRule := x.incHRule
  bitNhRule := x.bitNhRule
  costs := x.costs
  periphReset := x.periphReset

/-- The effect of a load: it sets parameters and nothing else (R216). -/
def hostLoad (s : State) (x : HostLoad) : State := { s with params := x.params }

/-- A change of a register or of a byte of a memory that is state, by which a harness sets up a start state (R216). -/
inductive Poke where
  | reg (r : Reg8) (v : Byte)
  | pc (v : Word)
  | sp (v : Word)
  | byte (addr : Word) (v : Byte)
  deriving DecidableEq, Repr

/-- The effect of a poke; none for an address of no memory that is state: an image's bytes are parameters. -/
def hostPoke (s : State) : Poke → Option State
  | .reg r v => some (s.setReg r v)
  | .pc v => some { s with pc := v }
  | .sp v => some { s with sp := v }
  | .byte addr v =>
    match select s.bootEn addr with
    | some (.vram, off) => some { s with vram := s.vram.write off v }
    | some (.io, off) => some { s with io := s.io.write off v }
    | some (.boot, _) => none
    | some (.cart, _) => none
    | none => none

/-! When each is allowed. -/

/-- Where a session stands: reset not yet released; released and no step taken; the run loop active, between two steps;
the loop stopped by the host (R213, R216, R217). -/
inductive HostPhase where
  | held
  | released
  | active
  | stopped
  deriving DecidableEq, Repr

/-- The machine under its host. The phase is the host's, not state of the CORE (log entry 17). -/
structure Session where
  phase   : HostPhase
  machine : State
  deriving DecidableEq, Repr

/-- The actions of the table of R216. -/
inductive HostAction where
  | load (x : HostLoad)
  | reset
  | observe
  | stop
  | setBootEn (v : Bool)
  | poke (p : Poke)
  deriving DecidableEq, Repr

/-- Between steps: reset is released, the loop is not stopped, and the machine is not FAULTED. -/
def Session.betweenSteps (k : Session) : Bool :=
  (k.phase == .released || k.phase == .active) && k.machine.run == .running

/-- Before the first step. -/
def Session.beforeFirstStep (k : Session) : Bool :=
  (k.phase == .held || k.phase == .released) && k.machine.run == .running

/-- An action of the host: the session after it, none where R216 does not allow it. -/
def hostAct (k : Session) : HostAction → Option Session
  | .load x => if k.phase = .held ∧ x.legal = true then some { k with machine := hostLoad k.machine x } else none
  | .reset => some { phase := .released, machine := hostReset k.machine }
  | .observe => some k
  | .stop => if k.betweenSteps then some { k with phase := .stopped } else none
  | .setBootEn v => if k.betweenSteps then some { k with machine := hostSetBootEn k.machine v } else none
  | .poke p =>
    if k.beforeFirstStep then (hostPoke k.machine p).map (fun t => { k with machine := t }) else none

/-- A step under the host: none before reset is released, after the loop is stopped, and in FAULTED (R101, R217). -/
def sessionStep (k : Session) : Option Session :=
  if k.phase = .released ∨ k.phase = .active then
    match step k.machine with
    | .next t => some { phase := .active, machine := t }
    | .fault _ => none
    | .refused _ => none
  else none

end Sys2Proof.Machine
end

