-- ==== Sys2Proof/Machine/Phases.lean ====
section
/-! DEFINITION. The step written phase by phase on a working copy, as the pseudocode of 40_engine.md rule R110 has it: Fetch, Resolve, Init, Execute with its own operand fetches, CommitFlags, Advance. `step` is the form with the operands decoded first; that the two agree is an obligation. -/

namespace Sys2Proof.Machine

open Sys2Proof

/-- `Fetch8()` on the working copy (R103). -/
def fetch8 (w : State) : Except FatalError (Byte × State) :=
  match memRead w w.pc with
  | .error err => .error err
  | .ok v => .ok (v, { w with pc := w.pc + 1#16 })

/-- `Fetch16()`: two `Fetch8()`, low byte first (R104). -/
def fetch16 (w : State) : Except FatalError (Word × State) :=
  match fetch8 w with
  | .error err => .error err
  | .ok (lo, w1) =>
    match fetch8 w1 with
    | .error err => .error err
    | .ok (hi, w2) => .ok (joinBytes hi lo, w2)

/-- An effect that begins with `Fetch8()`. -/
def withFetch8 (eff : Byte → State → Except FatalError Effect) (w : State) : Except FatalError Effect :=
  match fetch8 w with
  | .error err => .error err
  | .ok (v, w1) => eff v w1

/-- An effect that begins with `Fetch16()`. -/
def withFetch16 (eff : Word → State → Except FatalError Effect) (w : State) : Except FatalError Effect :=
  match fetch16 w with
  | .error err => .error err
  | .ok (v, w1) => eff v w1

/-- Init and Execute of each primary entry, PC past the opcode (R106, R107; the instruction rules R120 to R176). -/
def effEntry : Op → State → Except FatalError Effect
  | .ldBcD16 => withFetch16 (effLdPair .bc)
  | .ldDeD16 => withFetch16 (effLdPair .de)
  | .ldHlD16 => withFetch16 (effLdPair .hl)
  | .ldSpD16 => withFetch16 effLdSp
  | .ldIndBcA => effStorePair .bc
  | .ldIndDeA => effStorePair .de
  | .ldIndHlDecA => effStoreHlDec
  | .ldBD8 => withFetch8 (effLdReg .b)
  | .ldCD8 => withFetch8 (effLdReg .c)
  | .ldDD8 => withFetch8 (effLdReg .d)
  | .ldED8 => withFetch8 (effLdReg .e)
  | .ldHD8 => withFetch8 (effLdReg .h)
  | .ldLD8 => withFetch8 (effLdReg .l)
  | .ldAD8 => withFetch8 (effLdReg .a)
  | .incB => effInc .b
  | .incC => effInc .c
  | .incD => effInc .d
  | .incE => effInc .e
  | .incH => effInc .h
  | .incL => effInc .l
  | .incA => effInc .a
  | .xorA => effXorA
  | .jrNzE8 => withFetch8 effJrNz
  | .prefixCb => withFetch8 effPrefixCb
  | .ldhA8A => withFetch8 effStoreHigh
  | .ldIndCA => effStoreC

/-- Fetch, Resolve, Init and Execute on the working copy (R103, R105 to R107). -/
def phases (w : State) : Except FatalError Effect :=
  match fetch8 w with
  | .error err => .error err
  | .ok (op, w1) =>
    match primaryEntry op with
    | none => .error (.unknownOpcode .primary op)
    | some o => effEntry o w1

/-- The whole step of R110, phase by phase. -/
def phaseStep (s : State) : Result :=
  match s.run with
  | .faulted => .fault .halted
  | .running => conclude s (phases s)

end Sys2Proof.Machine
end

