-- ==== Sys2Proof/Safety.lean ====
section
/-! DEFINITION. The terms claims are stated in: what counts as a safe step, the machine's invariant, where code stands, which registers, flags and addresses an instruction writes (10_state.md rules R15, R17, R23), its cost (70_reset_and_hazards.md rule R226), and which step raises which error (60_exceptions.md rule R183). -/

namespace Sys2Proof.Machine

open Sys2Proof

/-- A step that completes: "a FAULTED state is never final" in the good sense (R190). -/
def SafeStep (s : State) : Prop := ∃ t, step s = .next t ∧ t.run = .running

/-! Invariant. -/

/-- An image lists only offsets below its length, in canonical form. -/
abbrev Image.wf (im : Image) : Prop := Memory.wf im.cells ∧ Memory.within im.len im.cells

/-- A legal configuration: well-formed images; the recognised addresses lie in the I/O block and contain 0xFF25
(R5, R67). -/
abbrev Params.wf (p : Params) : Prop :=
  Image.wf p.bootImage ∧ Image.wf p.cartImage ∧
  p.ioRecognised.all (fun addr => decide (0xFF00 ≤ addr.toNat) && decide (addr.toNat < 0xFF80)) = true ∧
  0xFF25#16 ∈ p.ioRecognised

/-- Both memories are canonical and keep to their sizes (R27, R41). -/
abbrev memoriesOk (s : State) : Prop :=
  Memory.wf s.vram ∧ Memory.within 0x2000 s.vram ∧ Memory.wf s.io ∧ Memory.within 0x80 s.io

/-- `run` and the fault record agree, and the record's pc is the value PC keeps (R29, R181). -/
abbrev faultOk (s : State) : Prop :=
  match s.fault with
  | none => s.run = .running
  | some r => s.run = .faulted ∧ r.pc = s.pc

/-- The invariant every step keeps. -/
abbrev Inv (s : State) : Prop := memoriesOk s ∧ Params.wf s.params ∧ faultOk s

/-- The values R33 requires of every reset state, whatever the registers and memories hold. -/
abbrev AfterReset (s : State) : Prop :=
  s.pc = 0#16 ∧ s.bootEn = true ∧ s.run = .running ∧ s.fault = none ∧ s.cycles = 0

/-! Code in memory. -/

/-- The bus returns these bytes at ascending addresses from `addr`. -/
def codeAt (s : State) (addr : Word) : List Byte → Bool
  | [] => true
  | v :: rest => (memRead s addr == .ok v) && codeAt s (addr + 1#16) rest

/-- What holds of an instruction and its bytes in a running machine: the bytes are its encoding, a step that finds them
at PC executes it, and where one of them cannot be read the step raises AddressingError with that address (R110, R183). -/
def FetchedAs (i : Instr) (bytes : List Byte) (s : State) : Prop :=
  encode i = bytes ∧
  (s.run = .running → codeAt s s.pc bytes = true → step s = exec i s) ∧
  (s.run = .running → ∀ (pre : List Byte) (v : Byte) (post : List Byte) (err : FatalError),
    bytes = pre ++ v :: post → codeAt s s.pc pre = true →
    memRead s (s.pc + BitVec.ofNat 16 pre.length) = .error err →
    step s = .next (raise s (.addressing (s.pc + BitVec.ofNat 16 pre.length) .read)))

/-! Multi-byte requests. -/

/-- Some region takes the address (R44). -/
abbrev mapped (addr : Word) : Prop :=
  addr.toNat < 0x4000 ∨ (0x8000 ≤ addr.toNat ∧ addr.toNat < 0xA000) ∨ (0xFF00 ≤ addr.toNat ∧ addr.toNat < 0xFF80)

/-- The first address past the region that a mapped address selects: the end of its bus range, or of its image where
that is shorter (R41). -/
def regionEnd (s : State) (addr : Word) : Nat :=
  if s.bootEn = true ∧ addr.toNat < 0x100 then min 0x100 s.params.bootImage.len
  else if addr.toNat < 0x4000 then min 0x4000 s.params.cartImage.len
  else if addr.toNat < 0xA000 then 0xA000
  else 0xFF80

/-! What each instruction writes. -/

/-- The 8-bit registers other than F an instruction writes (R15). -/
def regsWritten : Instr → List Reg8
  | .ldBcD16 _ => [.b, .c]
  | .ldDeD16 _ => [.d, .e]
  | .ldHlD16 _ => [.h, .l]
  | .ldBD8 _ | .incB => [.b]
  | .ldCD8 _ | .incC => [.c]
  | .ldDD8 _ | .incD => [.d]
  | .ldED8 _ | .incE => [.e]
  | .ldHD8 _ | .incH => [.h]
  | .ldLD8 _ | .incL => [.l]
  | .ldAD8 _ | .incA | .xorA => [.a]
  | .ldIndHlDecA => [.h, .l]
  | .ldSpD16 _ | .ldIndBcA | .ldIndDeA | .jrNzE8 _ | .prefixCb _ | .ldhA8A _ | .ldIndCA | .bit7H => []

/-- The flags an instruction writes (R23); BIT 7,H writes N and H only under `n0_h1` (R176). -/
def flagsWritten (p : Params) : Instr → List Flag
  | .incB | .incC | .incD | .incE | .incH | .incL | .incA => [.z, .n, .h]
  | .xorA => [.z, .n, .h, .c]
  | .bit7H | .prefixCb _ =>
    match p.bitNhRule with
    | .untouched => [.z]
    | .n0h1 => [.z, .n, .h]
  | _ => []

/-- The address an instruction stores A to, none for one that stores nothing (R140 to R144). -/
def storeAddr (s : State) : Instr → Option Word
  | .ldIndBcA => some (pairAddr s .bc)
  | .ldIndDeA => some (pairAddr s .de)
  | .ldIndHlDecA => some (pairAddr s .hl)
  | .ldhA8A n => some (portAddr n)
  | .ldIndCA => some (portAddr s.c)
  | _ => none

/-- An address a store succeeds at: video RAM, or the I/O block where the hook recognises it (R145). -/
abbrev storable (s : State) (addr : Word) : Prop :=
  (0x8000 ≤ addr.toNat ∧ addr.toNat < 0xA000) ∨
  (0xFF00 ≤ addr.toNat ∧ addr.toNat < 0xFF80 ∧ addr ∈ s.params.ioRecognised)

/-- The error a store to an address raises, none where it succeeds (R145). -/
def storeError (s : State) (addr : Word) : Option FatalError :=
  if addr.toNat < 0x4000 then some (.writeProtected addr)
  else if 0x8000 ≤ addr.toNat ∧ addr.toNat < 0xA000 then none
  else if 0xFF00 ≤ addr.toNat ∧ addr.toNat < 0xFF80 then
    (if addr ∈ s.params.ioRecognised then none else some (.unknownRegister addr s.a))
  else some (.addressing addr .write)

/-- The state in which A has been stored at a storable address, with PC and `cycles` moved on (R145). -/
def stored (s : State) (addr : Word) (len cost : Nat) : State :=
  if 0x8000 ≤ addr.toNat ∧ addr.toNat < 0xA000 then
    { s with vram := s.vram.write (addr.toNat - 0x8000) s.a,
             pc := s.pc + BitVec.ofNat 16 len, cycles := s.cycles + cost }
  else
    { s with io := s.io.write (addr.toNat - 0xFF00) s.a, periph := Config.ioHook addr s.a s.periph,
             pc := s.pc + BitVec.ofNat 16 len, cycles := s.cycles + cost }

/-- By how much PC moves past an instruction that does not jump (R17). -/
def pcAdvance : Instr → Nat
  | .ldBcD16 _ | .ldDeD16 _ | .ldHlD16 _ | .ldSpD16 _ => 3
  | .ldBD8 _ | .ldCD8 _ | .ldDD8 _ | .ldED8 _ | .ldHD8 _ | .ldLD8 _ | .ldAD8 _ => 2
  | .ldIndBcA | .ldIndDeA | .ldIndHlDecA | .ldIndCA => 1
  | .incB | .incC | .incD | .incE | .incH | .incL | .incA | .xorA => 1
  | .ldhA8A _ => 2
  | .jrNzE8 _ => 2
  | .bit7H => 2
  | .prefixCb _ => 2

/-- PC after a completed instruction, from PC0 and the Z flag at the start of the step (R17, R170). -/
def pcAfter (s : State) : Instr → Word
  | .jrNzE8 e => if s.flag .z = false then s.pc + 2#16 + sext16 e else s.pc + 2#16
  | i => s.pc + BitVec.ofNat 16 (pcAdvance i)

/-- The cost a completed instruction reports, from the Z flag at the start of the step, by the configured table (R226). -/
def costOf (s : State) : Instr → Nat
  | .ldBcD16 _ => s.params.costs.ldBc
  | .ldDeD16 _ | .ldHlD16 _ | .ldSpD16 _ => s.params.costs.ldPair
  | .ldBD8 _ | .ldCD8 _ | .ldDD8 _ | .ldED8 _ | .ldHD8 _ | .ldLD8 _ | .ldAD8 _ => s.params.costs.ldReg
  | .ldIndBcA | .ldIndDeA | .ldIndHlDecA => s.params.costs.storePair
  | .ldhA8A _ => s.params.costs.ldh
  | .ldIndCA => s.params.costs.storeC
  | .incB | .incC | .incD | .incE | .incH | .incL | .incA => s.params.costs.inc
  | .xorA => s.params.costs.xorA
  | .jrNzE8 _ => if s.flag .z = false then s.params.costs.jrTaken else s.params.costs.jrNotTaken
  | .bit7H | .prefixCb _ => s.params.costs.bit

/-- The cost as R226 lists it: what `costOf` is under the default table. -/
def listedCost (s : State) : Instr → Nat
  | .ldBcD16 _ | .ldDeD16 _ | .ldHlD16 _ | .ldSpD16 _ => 12
  | .ldBD8 _ | .ldCD8 _ | .ldDD8 _ | .ldED8 _ | .ldHD8 _ | .ldLD8 _ | .ldAD8 _ => 8
  | .ldIndBcA | .ldIndDeA | .ldIndHlDecA => 8
  | .ldhA8A _ => 12
  | .ldIndCA => 8
  | .incB | .incC | .incD | .incE | .incH | .incL | .incA => 4
  | .xorA => 4
  | .jrNzE8 _ => if s.flag .z = false then 12 else 8
  | .bit7H | .prefixCb _ => 8

/-- F after INC r on the old value of r: Z where the result is 0, N cleared, H by `INC_H_RULE` (the zero result, or the
carry out of the low nibble), C and the low nibble kept (R150). -/
def flagsAfterInc (s : State) (old : Byte) : Byte :=
  commitFlags
    ⟨some (old + 1#8 == 0#8), some false,
      some (if s.params.incHRule = .zeroResult then old + 1#8 == 0#8 else old &&& 0x0F#8 == 0x0F#8), none⟩ s.f

/-- F after BIT 7,H: Z the inverse of H[7], N and H by `BIT_NH_RULE`, C and the low nibble kept (R176). -/
def flagsAfterBit (s : State) : Byte :=
  commitFlags
    ⟨some (!s.h.getLsbD 7), if s.params.bitNhRule = .n0h1 then some false else none,
      if s.params.bitNhRule = .n0h1 then some true else none, none⟩ s.f

/-! Which step raises which error. -/

/-- The registered primary opcodes, by number (R85, R89). -/
def registeredOpcodes : List Byte :=
  [0x01#8, 0x02#8, 0x04#8, 0x06#8, 0x0C#8, 0x0E#8, 0x11#8, 0x12#8, 0x14#8, 0x16#8, 0x1C#8, 0x1E#8, 0x20#8] ++
  [0x21#8, 0x24#8, 0x26#8, 0x2C#8, 0x2E#8, 0x31#8, 0x32#8, 0x3C#8, 0x3E#8, 0xAF#8, 0xCB#8, 0xE0#8, 0xE2#8]

/-- The opcodes with a one-byte immediate: LD r,d8; LDH (a8),A; JR NZ,e8 (R81). -/
def oneByteImmediate : List Byte :=
  [0x06#8, 0x0E#8, 0x16#8, 0x1E#8, 0x26#8, 0x2E#8, 0x3E#8, 0xE0#8, 0x20#8]

/-- The opcodes with a two-byte immediate: LD rr,d16 (R81). -/
def twoByteImmediate : List Byte := [0x01#8, 0x11#8, 0x21#8, 0x31#8]

/-- The address a store opcode and the byte after it store to, none for another opcode (R183). -/
def storeOpcodeAddr (s : State) (op operand : Byte) : Option Word :=
  if op = 0x02#8 then some (s.pair .bc)
  else if op = 0x12#8 then some (s.pair .de)
  else if op = 0x32#8 then some (s.pair .hl)
  else if op = 0xE0#8 then some (0xFF00#16 + operand.setWidth 16)
  else if op = 0xE2#8 then some (0xFF00#16 + s.c.setWidth 16)
  else none

/-- The bus cannot read this address. -/
abbrev unreadable (s : State) (addr : Word) : Prop := ∃ err, memRead s addr = .error err

/-- The rows of the table of R183, in the order of R188: at which point a step of `s` raises `err`. -/
inductive RaiseRow (s : State) (err : FatalError) : Prop where
  | opcodeFetch (h : unreadable s s.pc) (he : err = .addressing s.pc .read)
  | resolve (op : Byte) (h : memRead s s.pc = .ok op) (hu : op ∉ registeredOpcodes)
      (he : err = .unknownOpcode .primary op)
  | secondaryFetch (h : memRead s s.pc = .ok 0xCB#8) (h1 : unreadable s (s.pc + 1#16))
      (he : err = .addressing (s.pc + 1#16) .read)
  | secondaryResolve (op2 : Byte) (h : memRead s s.pc = .ok 0xCB#8) (h1 : memRead s (s.pc + 1#16) = .ok op2)
      (hu : op2 ≠ 0x7C#8) (he : err = .unknownOpcode .secondary op2)
  | firstImmediate (op : Byte) (h : memRead s s.pc = .ok op) (ho : op ∈ oneByteImmediate ++ twoByteImmediate)
      (h1 : unreadable s (s.pc + 1#16)) (he : err = .addressing (s.pc + 1#16) .read)
  | secondImmediate (op lo : Byte) (h : memRead s s.pc = .ok op) (ho : op ∈ twoByteImmediate)
      (h1 : memRead s (s.pc + 1#16) = .ok lo) (h2 : unreadable s (s.pc + 2#16)) (he : err = .addressing (s.pc + 2#16) .read)
  | store (op operand : Byte) (addr : Word) (h : memRead s s.pc = .ok op)
      (h1 : op = 0xE0#8 → memRead s (s.pc + 1#16) = .ok operand)
      (ha : storeOpcodeAddr s op operand = some addr) (he : storeError s addr = some err)

end Sys2Proof.Machine
end

