-- ==== Sys2Proof/Certificates/Slice0/Obligations.lean ====
section
/-! DEFINITION. The statements for the provers, one `def Obligations.<Name> : Prop` each. A docstring names the rule or section a statement formalises, and the spec's own decision where it rests on one. -/

open Sys2Proof Sys2Proof.Machine

/-! Register file and flags. -/

/-- R11: a write of any value stores it modulo 256; no other register changes (R10). -/
def Obligations.RegisterWriteMasksToEightBits : Prop :=
  ∀ (s : State) (r : Reg8) (v : Nat),
    ((s.writeReg r v).reg r).toNat = v % 256 ∧ ∀ q, q ≠ r → (s.writeReg r v).reg q = s.reg q

/-- R13, R14: AF, BC, DE, HL are (A, F), (B, C), (D, E), (H, L); writing a pair splits the value over its two registers;
reading it back joins them. -/
def Obligations.PairWriteSplitsAndReadsBack : Prop :=
  ∀ (s : State) (p : Pair) (v : Nat),
    ((s.writePair p v).reg p.high).toNat = v / 256 % 256 ∧
    ((s.writePair p v).reg p.low).toNat = v % 256 ∧
    ((s.writePair p v).pair p).toNat = v % 65536 ∧
    (s.pair p).toNat = (s.reg p.high).toNat * 256 + (s.reg p.low).toNat ∧
    [Pair.af.high, Pair.af.low, Pair.bc.high, Pair.bc.low] = [Reg8.a, Reg8.f, Reg8.b, Reg8.c] ∧
    [Pair.de.high, Pair.de.low, Pair.hl.high, Pair.hl.low] = [Reg8.d, Reg8.e, Reg8.h, Reg8.l] ∧
    ∀ q, q ≠ p.high → q ≠ p.low → (s.writePair p v).reg q = s.reg q

/-- R16: a write of v to PC stores v mod 65536; SP likewise (R19). -/
def Obligations.PcAndSpWritesMaskToSixteenBits : Prop :=
  ∀ (s : State) (v : Nat),
    (s.writePc v).pc.toNat = v % 65536 ∧ (s.writeSp v).sp.toNat = v % 65536

/-- R20 to R22: Z, N, H, C are bits 7, 6, 5, 4 of F; a getter tests its bit; a setter sets or clears its bit and leaves
the other seven. -/
def Obligations.FlagSettersAreIndependent : Prop :=
  ∀ (f : Byte) (k : Flag) (v : Bool),
    [Flag.z.pos, Flag.n.pos, Flag.h.pos, Flag.c.pos] = [7, 6, 5, 4] ∧
    getFlag f k = f.getLsbD k.pos ∧ getFlag (setFlag f k v) k = v ∧
    ∀ i, i ≠ k.pos → (setFlag f k v).getLsbD i = f.getLsbD i

/-- R108: CommitFlags writes each flag whose directive is not `unset`, leaves the others, and never changes bits 3 to 0
of F; the escape's directives are those of the nested instruction. -/
def Obligations.CommitFlagsWritesExactlyTheDirectives : Prop :=
  ∀ (ds : Directives) (f : Byte),
    getFlag (commitFlags ds f) .z = ds.dZ.getD (getFlag f .z) ∧
    getFlag (commitFlags ds f) .n = ds.dN.getD (getFlag f .n) ∧
    getFlag (commitFlags ds f) .h = ds.dH.getD (getFlag f .h) ∧
    getFlag (commitFlags ds f) .c = ds.dC.getD (getFlag f .c) ∧
    (∀ i, i < 4 → (commitFlags ds f).getLsbD i = f.getLsbD i) ∧
    ∀ w : State, effPrefixCb 0x7C#8 w = effBit7H w

/-! Bus. -/

/-- R43, R45: the routing of every address, with its region-relative offset. -/
def Obligations.SelectRoutesEveryAddress : Prop :=
  ∀ (bootEn : Bool) (addr : Word),
    select bootEn addr =
      if bootEn = true ∧ addr.toNat ≤ 0x00FF then some (.boot, addr.toNat)
      else if addr.toNat ≤ 0x3FFF then some (.cart, addr.toNat)
      else if addr.toNat ≤ 0x7FFF then none
      else if addr.toNat ≤ 0x9FFF then some (.vram, addr.toNat - 0x8000)
      else if addr.toNat ≤ 0xFEFF then none
      else if addr.toNat ≤ 0xFF7F then some (.io, addr.toNat - 0xFF00)
      else none

/-- R50: what a bus read answers, by address. -/
def Obligations.ReadAnswersByAddress : Prop :=
  ∀ (s : State) (addr : Word),
    memRead s addr =
      if addr.toNat < 0x100 ∧ s.bootEn = true then
        (if addr.toNat < s.params.bootImage.len then .ok (Memory.read s.params.bootImage.cells addr.toNat)
         else .error (.addressing addr .read))
      else if addr.toNat < 0x4000 then
        (if addr.toNat < s.params.cartImage.len then .ok (Memory.read s.params.cartImage.cells addr.toNat)
         else .error (.addressing addr .read))
      else if 0x8000 ≤ addr.toNat ∧ addr.toNat < 0xA000 then .ok (Memory.read s.vram (addr.toNat - 0x8000))
      else if 0xFF00 ≤ addr.toNat ∧ addr.toNat < 0xFF80 then .ok (Memory.read s.io (addr.toNat - 0xFF00))
      else .error (.addressing addr .read)

/-- R54: which writes are legal, by address alone; a recognised I/O write calls the hook and stores the byte, an
unrecognised one is UnknownRegisterError (R68); a byte written reads back. -/
def Obligations.WriteLegalityByAddress : Prop :=
  ∀ (s : State) (addr : Word) (v : Byte),
    (addr.toNat < 0x4000 → memWrite s addr v = .error (.writeProtected addr)) ∧
    (0x4000 ≤ addr.toNat → addr.toNat < 0x8000 → memWrite s addr v = .error (.addressing addr .write)) ∧
    (0x8000 ≤ addr.toNat → addr.toNat < 0xA000 →
      memWrite s addr v = .ok { s with vram := Memory.write s.vram (addr.toNat - 0x8000) v }) ∧
    (0xA000 ≤ addr.toNat → addr.toNat < 0xFF00 → memWrite s addr v = .error (.addressing addr .write)) ∧
    (0xFF00 ≤ addr.toNat → addr.toNat < 0xFF80 → addr ∈ s.params.ioRecognised →
      memWrite s addr v = .ok { s with io := Memory.write s.io (addr.toNat - 0xFF00) v,
                                       periph := Config.ioHook addr v s.periph }) ∧
    (0xFF00 ≤ addr.toNat → addr.toNat < 0xFF80 → addr ∉ s.params.ioRecognised →
      memWrite s addr v = .error (.unknownRegister addr v)) ∧
    (0xFF80 ≤ addr.toNat → memWrite s addr v = .error (.addressing addr .write)) ∧
    ∀ t, memWrite s addr v = .ok t → memRead t addr = .ok v

/-- R47, R61: after a write that succeeds, its address reads as the byte written and every other address reads as
before. -/
def Obligations.ReadAfterWrite : Prop :=
  ∀ (s t : State) (addr : Word) (v : Byte), memWrite s addr v = .ok t →
    memRead t addr = .ok v ∧ ∀ other, other ≠ addr → memRead t other = memRead s other

/-- R58, U1 (D6): a multi-byte read of one byte is MemRead; one whose first address no region takes raises; one whose
bytes all lie in the region its first address selects (bus range and image both) is done, with the bytes the same
one-byte reads at ascending addresses answer; one of two or more bytes that overruns that region is refused. The
model's choices, not the spec's (log entry 12): that a first address no region takes raises for every size other than
one, and that a request of size 0 at a mapped address is done with no byte. -/
def Obligations.MultiByteReadIsBytewiseOrRefused : Prop :=
  ∀ (s : State) (addr : Word) (n : Nat),
    (∀ v, memRead s addr = .ok v → busReadMany s addr 1 = .done [v]) ∧
    (∀ err, memRead s addr = .error err → busReadMany s addr 1 = .raised err) ∧
    (¬ mapped addr → busReadMany s addr n = .raised (.addressing addr .read)) ∧
    (mapped addr → addr.toNat + n ≤ regionEnd s addr →
      (∃ vs, busReadMany s addr n = .done vs) ∧
      ∀ vs : List Byte, vs.length = n → (∀ k (h : k < vs.length), memRead s (addr + BitVec.ofNat 16 k) = .ok vs[k]) →
        busReadMany s addr n = .done vs) ∧
    (∀ vs : List Byte, busReadMany s addr n = .done vs →
      vs.length = n ∧ ∀ k (h : k < vs.length), memRead s (addr + BitVec.ofNat 16 k) = .ok vs[k]) ∧
    (mapped addr → 2 ≤ n → regionEnd s addr < addr.toNat + n → busReadMany s addr n = .refused)

/-- R58, R71, U1 (D6): a multi-byte write of one byte is MemWrite; one whose first address no region takes raises; one
whose bytes all lie in the region its first address selects is its first one-byte write followed by the write of the
rest at the next address, so the hook is called once per byte in ascending order, and it stops at the first error with
the earlier bytes written; one of two or more bytes that overruns that region is refused and changes nothing. The
model's choices, not the spec's (log entry 12): that a write of two or more bytes whose first address no region takes
raises, and that a write stopped by an error leaves the earlier bytes written. -/
def Obligations.MultiByteWriteIsBytewiseOrRefused : Prop :=
  ∀ (s : State) (addr : Word) (v : Byte) (rest : List Byte),
    (∀ t, memWrite s addr v = .ok t → busWriteMany s addr [v] = (.done (), t)) ∧
    (∀ err, memWrite s addr v = .error err → busWriteMany s addr [v] = (.raised err, s)) ∧
    (¬ mapped addr → busWriteMany s addr (v :: rest) = (.raised (.addressing addr .write), s)) ∧
    (mapped addr → rest ≠ [] → addr.toNat + (rest.length + 1) ≤ regionEnd s addr →
      (∀ t, memWrite s addr v = .ok t → busWriteMany s addr (v :: rest) = busWriteMany t (addr + 1#16) rest) ∧
      ∀ err, memWrite s addr v = .error err → busWriteMany s addr (v :: rest) = (.raised err, s)) ∧
    (mapped addr → rest ≠ [] → regionEnd s addr < addr.toNat + (rest.length + 1) →
      busWriteMany s addr (v :: rest) = (.refused, s))

/-! Encoding. -/

/-- R85, R86, R88, R89 (numbers: D2, D4): the primary table registers exactly the 26 listed opcodes and the secondary
table exactly 0x7C; every other byte sequence's first byte is refused by name. -/
def Obligations.TablesRegisterExactlyTheListedOpcodes : Prop :=
  registeredOpcodes.length = 26 ∧ registeredOpcodes.Nodup ∧
  (∀ op : Byte, (primaryEntry op).isSome = true ↔ op ∈ registeredOpcodes) ∧
  (∀ op2 : Byte, (secondaryEntry op2).isSome = true ↔ op2 = 0x7C#8) ∧
  (∀ (op : Byte) (rest : List Byte), op ∉ registeredOpcodes → decode (op :: rest) = .error (.unknownPrimary op))

/-- R81, R85, R86: hand-written words of each family decode to their instruction; the source's own word is the first. -/
def Obligations.HandWrittenWordsDecode : Prop :=
  decode [0x01#8, 0x34#8, 0x12#8] = .ok (.ldBcD16 0x1234#16, []) ∧
  decode [0x31#8, 0xFE#8, 0xFF#8, 0xAF#8] = .ok (.ldSpD16 0xFFFE#16, [0xAF#8]) ∧
  decode [0x3E#8, 0x80#8] = .ok (.ldAD8 0x80#8, []) ∧
  decode [0x32#8] = .ok (.ldIndHlDecA, []) ∧
  decode [0xE0#8, 0x25#8] = .ok (.ldhA8A 0x25#8, []) ∧
  decode [0x2C#8] = .ok (.incL, []) ∧
  decode [0xAF#8] = .ok (.xorA, []) ∧
  decode [0x20#8, 0xFB#8] = .ok (.jrNzE8 0xFB#8, []) ∧
  decode [0xCB#8, 0x7C#8] = .ok (.bit7H, []) ∧
  decode [0xCB#8, 0xCB#8] = .ok (.prefixCb 0xCB#8, []) ∧
  decode [0x00#8] = .error (.unknownPrimary 0x00#8) ∧
  decode [0xFF#8] = .error (.unknownPrimary 0xFF#8)

/-- R81, R85, R86, R90: decoding the bytes of a well-formed instruction gives it back, with the bytes after it. -/
def Obligations.DecodeOfEncode : Prop :=
  ∀ (i : Instr) (rest : List Byte), i.wf = true → decode (encode i ++ rest) = .ok (i, rest)

/-- R81, R90: what the decoder answers is well-formed, and its bytes are those that were read: no bit is dropped. -/
def Obligations.EncodeOfDecode : Prop :=
  ∀ (bytes rest : List Byte) (i : Instr), decode bytes = .ok (i, rest) → i.wf = true ∧ encode i ++ rest = bytes

/-! The step. -/

/-- R110, R17: a running machine that finds a well-formed instruction's bytes at PC executes it; `exec` moves PC. The
bytes may come from two regions, one-byte transactions each routed on its own: the spec's decision D6 (log entry 11). -/
def Obligations.StepRunsTheDecodedInstruction : Prop :=
  ∀ (s : State) (i : Instr), s.run = .running → i.wf = true → codeAt s s.pc (encode i) = true → step s = exec i s

/-- R101: a step is enabled exactly when `run` is RUNNING; the model's answer in FAULTED is the fault `halted`. -/
def Obligations.StepIsEnabledExactlyWhenRunning : Prop :=
  ∀ s : State, ((∃ t, step s = .next t) ↔ s.run = .running) ∧ (step s = .fault .halted ↔ s.run = .faulted)

/-- R110 (with D7): `step` is the pseudocode of R110 run phase by phase on a working copy. -/
def Obligations.StepIsThePhaseByPhaseStep : Prop := ∀ s : State, step s = phaseStep s

/-- R8, R181, R189 (D7): a step from a running state either completes, still RUNNING with the fault record untouched, or
leaves the state before it with `run` = FAULTED and the record (error, PC0). -/
def Obligations.FaultLeavesTheStateBefore : Prop :=
  ∀ s t : State, s.run = .running → step s = .next t →
    (t.run = .running ∧ t.fault = s.fault) ∨
    ∃ err, t = { s with run := .faulted, fault := some { error := err, pc := s.pc } }

/-- R182 (D8): the codes of the four errors, and the record a raise stores (R181). -/
def Obligations.FaultCodesAndRecord : Prop :=
  ∀ (s : State) (addr : Word) (acc : Access) (tab : OpTable) (v : Byte),
    FatalError.code (.addressing addr acc) = 1 ∧ FatalError.code (.writeProtected addr) = 2 ∧
    FatalError.code (.unknownOpcode tab v) = 3 ∧ FatalError.code (.unknownRegister addr v) = 4 ∧
    ∀ err, raise s err = { s with run := .faulted, fault := some { error := err, pc := s.pc } }

/-- R183, R188: a step of a running machine raises an error exactly where a row of the table says so. -/
def Obligations.StepRaisesExactlyTheTable : Prop :=
  ∀ (s : State) (err : FatalError), s.run = .running → (step s = .next (raise s err) ↔ RaiseRow s err)

/-- R186, C2: fetching an opcode that is not registered, in the primary table or after the escape in the secondary one,
raises UnknownOpcodeError and performs no register or memory mutation, PC included. -/
def Obligations.UnregisteredOpcodeHalts : Prop :=
  ∀ (s : State) (op : Byte), s.run = .running →
    (memRead s s.pc = .ok op → primaryEntry op = none →
      step s = .next { s with run := .faulted, fault := some { error := .unknownOpcode .primary op, pc := s.pc } }) ∧
    (memRead s s.pc = .ok escapeOpcode → memRead s (s.pc + 1#16) = .ok op → secondaryEntry op = none →
      step s = .next { s with run := .faulted, fault := some { error := .unknownOpcode .secondary op, pc := s.pc } })

/-- R17: PC after a completed step, and PC kept by a step that faults. -/
def Obligations.PcAfterEachInstruction : Prop :=
  ∀ (s t : State), s.run = .running → step s = .next t →
    (t.run = .faulted → t.pc = s.pc) ∧
    (t.run = .running → ∃ i, fetchInstr s = .ok i ∧ t.pc = pcAfter s i)

/-- R226 (D5), R109: the cost a completed step adds to `cycles` is the configured table's entry for the instruction it
fetched, which under the default table is the listed number; a step that faults, in its fetch or in its execution,
adds nothing (D25). The second half says the same of `exec`. -/
def Obligations.CyclesGrowByTheReportedCost : Prop :=
  (∀ s t : State, s.run = .running → step s = .next t →
    (t.run = .running → ∃ i, fetchInstr s = .ok i ∧ t.cycles = s.cycles + costOf s i) ∧
    (t.run = .faulted → t.cycles = s.cycles)) ∧
  (∀ (i : Instr) (s t : State), s.run = .running → exec i s = .next t →
    (t.run = .running → t.cycles = s.cycles + costOf s i) ∧ (t.run = .faulted → t.cycles = s.cycles)) ∧
  ∀ (i : Instr) (s : State), s.params.costs = defaultCosts → costOf s i = listedCost s i

/-! Immediate loads. -/

/-- R120: LD BC,d16, its encoding, its effect, its cost (the configured one, 12 by default), and its fetch errors. The two
operand bytes may come from two regions (R57, the spec's decision D6, log entry 11); an error leaves the state before
the step but for `run` and the record (D7, log entry 10). -/
def Obligations.LdBcImmediate : Prop :=
  ∀ (s : State) (v : Word),
    exec (.ldBcD16 v) s =
      .next { s with b := hiByte v, c := loByte v, pc := s.pc + 3#16, cycles := s.cycles + s.params.costs.ldBc } ∧
    (s.params.costs = defaultCosts → exec (.ldBcD16 v) s =
      .next { s with b := hiByte v, c := loByte v, pc := s.pc + 3#16, cycles := s.cycles + 12 }) ∧
    FetchedAs (.ldBcD16 v) [0x01#8, loByte v, hiByte v] s

/-- 41 section 2, the other three LD rr,d16 (opcode numbers D4, cost D5; operand bytes from two regions D6, log entry 11;
the state an error leaves D7, log entry 10). -/
def Obligations.LdPairImmediate : Prop :=
  ∀ (s : State) (v : Word),
    exec (.ldDeD16 v) s =
      .next { s with d := hiByte v, e := loByte v, pc := s.pc + 3#16, cycles := s.cycles + s.params.costs.ldPair } ∧
    exec (.ldHlD16 v) s =
      .next { s with h := hiByte v, l := loByte v, pc := s.pc + 3#16, cycles := s.cycles + s.params.costs.ldPair } ∧
    exec (.ldSpD16 v) s = .next { s with sp := v, pc := s.pc + 3#16, cycles := s.cycles + s.params.costs.ldPair } ∧
    defaultCosts.ldPair = 12 ∧
    FetchedAs (.ldDeD16 v) [0x11#8, loByte v, hiByte v] s ∧
    FetchedAs (.ldHlD16 v) [0x21#8, loByte v, hiByte v] s ∧
    FetchedAs (.ldSpD16 v) [0x31#8, loByte v, hiByte v] s

/-- 41 section 3, the seven LD r,d8 (members D3, opcode numbers D4, cost D5). -/
def Obligations.LdRegisterImmediate : Prop :=
  ∀ (s : State) (v : Byte),
    exec (.ldBD8 v) s = .next { s with b := v, pc := s.pc + 2#16, cycles := s.cycles + s.params.costs.ldReg } ∧
    exec (.ldCD8 v) s = .next { s with c := v, pc := s.pc + 2#16, cycles := s.cycles + s.params.costs.ldReg } ∧
    exec (.ldDD8 v) s = .next { s with d := v, pc := s.pc + 2#16, cycles := s.cycles + s.params.costs.ldReg } ∧
    exec (.ldED8 v) s = .next { s with e := v, pc := s.pc + 2#16, cycles := s.cycles + s.params.costs.ldReg } ∧
    exec (.ldHD8 v) s = .next { s with h := v, pc := s.pc + 2#16, cycles := s.cycles + s.params.costs.ldReg } ∧
    exec (.ldLD8 v) s = .next { s with l := v, pc := s.pc + 2#16, cycles := s.cycles + s.params.costs.ldReg } ∧
    exec (.ldAD8 v) s = .next { s with a := v, pc := s.pc + 2#16, cycles := s.cycles + s.params.costs.ldReg } ∧
    defaultCosts.ldReg = 8 ∧
    FetchedAs (.ldBD8 v) [0x06#8, v] s ∧ FetchedAs (.ldCD8 v) [0x0E#8, v] s ∧
    FetchedAs (.ldDD8 v) [0x16#8, v] s ∧ FetchedAs (.ldED8 v) [0x1E#8, v] s ∧
    FetchedAs (.ldHD8 v) [0x26#8, v] s ∧ FetchedAs (.ldLD8 v) [0x2E#8, v] s ∧
    FetchedAs (.ldAD8 v) [0x3E#8, v] s

/-- 20 R57 (D6, U1): a 16-bit immediate across 0x00FF/0x0100 with the overlay on is assembled from both images. -/
def Obligations.StraddlingImmediateReadsBothImages : Prop :=
  ∀ (s : State) (lo hi : Byte), s.run = .running → s.bootEn = true → s.pc = 0x00FE#16 →
    0x100 ≤ s.params.bootImage.len → 0x101 ≤ s.params.cartImage.len →
    Memory.read s.params.bootImage.cells 0xFE = 0x01#8 → Memory.read s.params.bootImage.cells 0xFF = lo →
    Memory.read s.params.cartImage.cells 0x100 = hi →
    step s = .next { s with b := hi, c := lo, pc := 0x0101#16, cycles := s.cycles + s.params.costs.ldBc }

/-! Stores. -/

/-- 42 sections 1 to 3 (opcode numbers D4, costs D5): each of the five stores completes where its address is storable,
with A in memory and, for LD (HL-),A, HL decremented. -/
def Obligations.StoresComplete : Prop :=
  ∀ (s : State) (n : Byte),
    (storable s (s.pair .bc) → exec .ldIndBcA s = .next (stored s (s.pair .bc) 1 s.params.costs.storePair)) ∧
    (storable s (s.pair .de) → exec .ldIndDeA s = .next (stored s (s.pair .de) 1 s.params.costs.storePair)) ∧
    (storable s (s.pair .hl) → exec .ldIndHlDecA s =
      .next { stored s (s.pair .hl) 1 s.params.costs.storePair with
                h := hiByte (s.pair .hl - 1#16), l := loByte (s.pair .hl - 1#16) }) ∧
    (storable s (0xFF00#16 + n.setWidth 16) → exec (.ldhA8A n) s =
      .next (stored s (0xFF00#16 + n.setWidth 16) 2 s.params.costs.ldh)) ∧
    (storable s (0xFF00#16 + s.c.setWidth 16) → exec .ldIndCA s =
      .next (stored s (0xFF00#16 + s.c.setWidth 16) 1 s.params.costs.storeC)) ∧
    defaultCosts.storePair = 8 ∧ defaultCosts.ldh = 12 ∧ defaultCosts.storeC = 8

/-- 42 section 1, 20 R54, R68 (D7): a store to an address that is not storable raises the error the table gives for that
address, and changes nothing else: no byte stored, HL not decremented. -/
def Obligations.StoresRaiseByAddress : Prop :=
  ∀ (s : State) (i : Instr) (addr : Word) (err : FatalError),
    storeAddr s i = some addr → storeError s addr = some err →
    exec i s = .next { s with run := .faulted, fault := some { error := err, pc := s.pc } }

/-- 42: the bytes of the five stores, and their fetch errors (opcode numbers D4). -/
def Obligations.StoresAreFetched : Prop :=
  ∀ (s : State) (n : Byte),
    FetchedAs .ldIndBcA [0x02#8] s ∧ FetchedAs .ldIndDeA [0x12#8] s ∧ FetchedAs .ldIndHlDecA [0x32#8] s ∧
    FetchedAs (.ldhA8A n) [0xE0#8, n] s ∧ FetchedAs .ldIndCA [0xE2#8] s

/-- R185: a write raises WriteProtectedError exactly where its address selects the boot image or the cartridge, that is
below 0x4000, whatever `boot_en` and the lengths of the images are. -/
def Obligations.WriteProtectedExactlyBelow4000 : Prop :=
  ∀ (s : State) (addr : Word) (v : Byte),
    (memWrite s addr v = .error (.writeProtected addr) ↔ addr.toNat < 0x4000) ∧
    ((select s.bootEn addr).map Prod.fst = some .boot ∨ (select s.bootEn addr).map Prod.fst = some .cart ↔
      addr.toNat < 0x4000)

/-- R64, R53: a store that completes is seen by the very next read or fetch of its address. -/
def Obligations.StoreIsSeenByTheNextFetch : Prop :=
  ∀ (s t : State) (i : Instr) (addr : Word), s.run = .running → storeAddr s i = some addr → exec i s = .next t →
    t.run = .running → memRead t addr = .ok s.a

/-! Arithmetic and logic. -/

/-- 43 section 2 (members D3, opcode numbers D4, cost D5, H rule D12): the seven INC r, under either `INC_H_RULE`. -/
def Obligations.IncRegister : Prop :=
  ∀ s : State,
    exec .incB s = .next { s with
      b := s.b + 1#8, f := flagsAfterInc s s.b, pc := s.pc + 1#16, cycles := s.cycles + s.params.costs.inc } ∧
    exec .incC s = .next { s with
      c := s.c + 1#8, f := flagsAfterInc s s.c, pc := s.pc + 1#16, cycles := s.cycles + s.params.costs.inc } ∧
    exec .incD s = .next { s with
      d := s.d + 1#8, f := flagsAfterInc s s.d, pc := s.pc + 1#16, cycles := s.cycles + s.params.costs.inc } ∧
    exec .incE s = .next { s with
      e := s.e + 1#8, f := flagsAfterInc s s.e, pc := s.pc + 1#16, cycles := s.cycles + s.params.costs.inc } ∧
    exec .incH s = .next { s with
      h := s.h + 1#8, f := flagsAfterInc s s.h, pc := s.pc + 1#16, cycles := s.cycles + s.params.costs.inc } ∧
    exec .incL s = .next { s with
      l := s.l + 1#8, f := flagsAfterInc s s.l, pc := s.pc + 1#16, cycles := s.cycles + s.params.costs.inc } ∧
    exec .incA s = .next { s with
      a := s.a + 1#8, f := flagsAfterInc s s.a, pc := s.pc + 1#16, cycles := s.cycles + s.params.costs.inc } ∧
    defaultCosts.inc = 4 ∧
    FetchedAs .incB [0x04#8] s ∧ FetchedAs .incC [0x0C#8] s ∧ FetchedAs .incD [0x14#8] s ∧
    FetchedAs .incE [0x1C#8] s ∧ FetchedAs .incH [0x24#8] s ∧ FetchedAs .incL [0x2C#8] s ∧
    FetchedAs .incA [0x3C#8] s

/-- 43 section 2 (D12): under `zero_result` the half-carry directive equals the Zero directive; under `nibble_carry` it
is the carry out of the low nibble; the two differ on exactly 15 of the 256 inputs. -/
def Obligations.IncHalfCarryUnderBothRules : Prop :=
  (∀ old : Byte, incHalfCarry .zeroResult old (old + 1#8) = (incDirectives .zeroResult old (old + 1#8)).dZ.getD false) ∧
  (∀ old : Byte, incHalfCarry .nibbleCarry old (old + 1#8) = true ↔ old.toNat % 16 + 1 = 16) ∧
  ((List.range 256).filter (fun n =>
    incHalfCarry .zeroResult (BitVec.ofNat 8 n) (BitVec.ofNat 8 n + 1#8) !=
      incHalfCarry .nibbleCarry (BitVec.ofNat 8 n) (BitVec.ofNat 8 n + 1#8))).length = 15

/-- 43 section 3 (cost D5): XOR A from any accumulator gives A = 0, Z = 1, N = H = C = 0, F's low nibble kept. -/
def Obligations.XorAClears : Prop :=
  ∀ s : State,
    exec .xorA s = .next { s with
      a := 0#8, f := 0x80#8 ||| (s.f &&& 0x0F#8), pc := s.pc + 1#16, cycles := s.cycles + s.params.costs.xorA } ∧
    defaultCosts.xorA = 4 ∧
    FetchedAs .xorA [0xAF#8] s

/-! Jump, escape, bit test. -/

/-- 44 (two's complement D14): JR NZ,e8 taken and not taken, with both costs; the displacement is fetched either way and
the jump itself raises nothing. -/
def Obligations.JumpRelativeOnNotZero : Prop :=
  ∀ (s : State) (e : Byte),
    (s.f.getLsbD 7 = false → exec (.jrNzE8 e) s =
      .next { s with pc := BitVec.ofInt 16 (s.pc.toNat + 2 + e.toInt), cycles := s.cycles + s.params.costs.jrTaken }) ∧
    (s.f.getLsbD 7 = true → exec (.jrNzE8 e) s =
      .next { s with pc := s.pc + 2#16, cycles := s.cycles + s.params.costs.jrNotTaken }) ∧
    defaultCosts.jrTaken = 12 ∧ defaultCosts.jrNotTaken = 8 ∧
    FetchedAs (.jrNzE8 e) [0x20#8, e] s

/-- 45 (numbers D2, D4; cost D5; N and H D13): BIT 7,H sets Z to the inverse of H[7], N and H by `BIT_NH_RULE`, keeps C and
the low nibble, and leaves H. -/
def Obligations.BitTestSevenOfH : Prop :=
  ∀ s : State,
    exec .bit7H s =
      .next { s with f := flagsAfterBit s, pc := s.pc + 2#16, cycles := s.cycles + s.params.costs.bit } ∧
    defaultCosts.bit = 8 ∧
    FetchedAs .bit7H [0xCB#8, 0x7C#8] s

/-- 45 (numbers D2, D4; D5, D7, D13, D30): the escape with 0x7C completes as the nested BIT 7,H, whose cost includes the
prefix byte; every other secondary opcode, 0xCB among them, raises UnknownOpcodeError(secondary, op2) and changes
nothing else. -/
def Obligations.EscapeDispatchesOneLevel : Prop :=
  ∀ (s : State) (op2 : Byte),
    exec (.prefixCb 0x7C#8) s =
      .next { s with f := flagsAfterBit s, pc := s.pc + 2#16, cycles := s.cycles + s.params.costs.bit } ∧
    (op2 ≠ 0x7C#8 → exec (.prefixCb op2) s =
      .next { s with run := .faulted, fault := some { error := .unknownOpcode .secondary op2, pc := s.pc } }) ∧
    (op2 ≠ 0x7C#8 → FetchedAs (.prefixCb op2) [0xCB#8, op2] s)

/-! Frames. -/

/-- R15, R23: the frame of the 22 instructions that store nothing (the eleven loads, the seven INC, XOR A, JR, PREFIX CB,
BIT 7,H): only the registers and flags named for the instruction, PC, `cycles` and, for LD SP,d16, SP may change; all of
memory, `boot_en`, the peripheral state and the parameters are unchanged; `run` and `fault` change only by PREFIX CB's
own error. -/
def Obligations.FrameOfInstructionsThatStoreNothing : Prop :=
  ∀ (i : Instr) (s t : State), storeAddr s i = none → exec i s = .next t →
    (∀ r, r ≠ .f → r ∉ regsWritten i → t.reg r = s.reg r) ∧
    (∀ k, k ∉ flagsWritten s.params i → t.flag k = s.flag k) ∧
    (∀ n, n < 4 → t.f.getLsbD n = s.f.getLsbD n) ∧
    ((∀ v, i ≠ .ldSpD16 v) → t.sp = s.sp) ∧
    ((∀ op2, i ≠ .prefixCb op2) → t.run = s.run ∧ t.fault = s.fault) ∧
    t.bootEn = s.bootEn ∧ t.periph = s.periph ∧ t.params = s.params ∧ t.vram = s.vram ∧ t.io = s.io ∧
    ∀ addr, memRead t addr = memRead s addr

/-- R15, R23, 42 section 1: the frame of the five stores: no register but HL for LD (HL-),A, no flag, no bit of F, not
SP, and every byte of memory but the one at the address the instruction computes; `boot_en` and the parameters too. The
peripheral state changes only when that address is in the I/O block. -/
def Obligations.FrameOfStores : Prop :=
  ∀ (i : Instr) (s t : State) (addr : Word), storeAddr s i = some addr → exec i s = .next t →
    (∀ r, (i = .ldIndHlDecA → r ≠ .h ∧ r ≠ .l) → t.reg r = s.reg r) ∧
    t.sp = s.sp ∧ t.bootEn = s.bootEn ∧ t.params = s.params ∧
    (addr.toNat < 0xFF00 → t.periph = s.periph) ∧
    (storable s addr → t.run = s.run ∧ t.fault = s.fault) ∧
    ∀ other, other ≠ addr → memRead t other = memRead s other

/-! Whole-machine rules. -/

/-- R5, R26 (D11): no step changes `boot_en` or a parameter. -/
def Obligations.StepKeepsOverlayAndParameters : Prop :=
  ∀ s t : State, step s = .next t → t.bootEn = s.bootEn ∧ t.params = s.params

/-- R54, R64: no step changes what an address below 0x4000 reads as: the boot image and the cartridge are read-only. -/
def Obligations.StepNeverChangesRom : Prop :=
  ∀ (s t : State) (addr : Word), step s = .next t → addr.toNat < 0x4000 → memRead t addr = memRead s addr

/-- R24 (D28): no step changes bits 3 to 0 of F. -/
def Obligations.StepKeepsLowNibbleOfF : Prop :=
  ∀ (s t : State) (n : Nat), step s = .next t → n < 4 → t.f.getLsbD n = s.f.getLsbD n

/-- R19: only LD SP,d16 writes SP. -/
def Obligations.OnlyLdSpWritesSp : Prop :=
  ∀ s t : State, step s = .next t → t.sp ≠ s.sp → ∃ v, fetchInstr s = .ok (.ldSpD16 v) ∧ t.sp = v

/-- R30, R71: a step calls the hook at most once, and only where the instruction it fetched stores A to that recognised
I/O address; otherwise the I/O block and the peripheral state stay. -/
def Obligations.AtMostOneHookCallPerStep : Prop :=
  ∀ s t : State, step s = .next t →
    (t.io = s.io ∧ t.periph = s.periph) ∨
    ∃ (i : Instr) (addr : Word), fetchInstr s = .ok i ∧ storeAddr s i = some addr ∧
      0xFF00 ≤ addr.toNat ∧ addr.toNat < 0xFF80 ∧ addr ∈ s.params.ioRecognised ∧
      t.io = Memory.write s.io (addr.toNat - 0xFF00) s.a ∧ t.periph = Config.ioHook addr s.a s.periph

/-- R19, R28, R30: SP, `cycles` and the peripheral state are read by nothing: a step from a state that differs only in
them ends in a state that differs only in them. -/
def Obligations.SpCyclesAndPeripheralAreNeverRead : Prop :=
  ∀ (s t : State) (sp : Word) (n : Nat) (q : Periph), step s = .next t →
    ∃ u, step { s with sp := sp, cycles := n, periph := q } = .next u ∧
      { u with sp := t.sp, cycles := t.cycles, periph := t.periph } = t

/-- R23: no instruction reads N, H, C or the low nibble of F: with another F of the same bit 7 a step differs only in
F. -/
def Obligations.OnlyZeroFlagIsRead : Prop :=
  ∀ (s t : State) (f : Byte), f.getLsbD 7 = s.f.getLsbD 7 → step s = .next t →
    ∃ u, step { s with f := f } = .next u ∧ { u with f := t.f } = t

/-- The invariant (memories canonical and within their sizes, legal configuration, `run` and fault record agreeing, the
record's pc the value PC keeps) is kept by every step (R27, R29, R67, R181). -/
def Obligations.StepKeepsInvariant : Prop := ∀ s t : State, Inv s → step s = .next t → Inv t

/-! Reset and host. -/

/-- R216 (D20), R217: which action the host may take in which phase, and its effect; what is not allowed does not
happen. The session and its phases, and how each row of R216 reads in them, are the model's choice (log entry 17). -/
def Obligations.HostActsWhenAllowed : Prop :=
  ∀ k : Session,
    (∀ x, k.phase = .held → x.legal = true →
      hostAct k (.load x) = some { k with machine := { k.machine with params := x.params } }) ∧
    (∀ x, k.phase ≠ .held ∨ x.legal = false → hostAct k (.load x) = none) ∧
    hostAct k .reset = some ⟨.released, hostReset k.machine⟩ ∧
    hostAct k .observe = some k ∧
    (k.phase = .released ∨ k.phase = .active → k.machine.run = .running →
      hostAct k .stop = some { k with phase := .stopped } ∧
      ∀ v, hostAct k (.setBootEn v) = some { k with machine := { k.machine with bootEn := v } }) ∧
    (k.phase = .held ∨ k.phase = .stopped ∨ k.machine.run = .faulted →
      hostAct k .stop = none ∧ sessionStep k = none ∧ ∀ v, hostAct k (.setBootEn v) = none) ∧
    (k.phase = .held ∨ k.phase = .released → k.machine.run = .running →
      (∀ r v, hostAct k (.poke (.reg r v)) = some { k with machine := k.machine.setReg r v }) ∧
      (∀ v, hostAct k (.poke (.pc v)) = some { k with machine := { k.machine with pc := v } }) ∧
      (∀ v, hostAct k (.poke (.sp v)) = some { k with machine := { k.machine with sp := v } }) ∧
      ∀ (addr : Word) v, hostAct k (.poke (.byte addr v)) =
        if 0x8000 ≤ addr.toNat ∧ addr.toNat < 0xA000 then
          some { k with machine := { k.machine with vram := Memory.write k.machine.vram (addr.toNat - 0x8000) v } }
        else if 0xFF00 ≤ addr.toNat ∧ addr.toNat < 0xFF80 then
          some { k with machine := { k.machine with io := Memory.write k.machine.io (addr.toNat - 0xFF00) v } }
        else none) ∧
    (k.phase = .active ∨ k.phase = .stopped ∨ k.machine.run = .faulted → ∀ p, hostAct k (.poke p) = none)

/-- R5, R211, R216 (D9, D20): once reset is released no action and no step changes a parameter, and the phase in which
parameters are loaded does not come back. The model's choice, not the spec's (log entry 17): the session and its phases,
and that reset is a pulse, so that the loading phase never comes back. -/
def Obligations.ParametersStayOnceResetIsReleased : Prop :=
  ∀ (k m : Session), k.phase ≠ .held → (sessionStep k = some m ∨ ∃ a, hostAct k a = some m) →
    m.machine.params = k.machine.params ∧ m.phase ≠ .held

/-- The invariant is kept by every action of the host and by every step under it (R216, R27, R29, R67). The session is
the model's choice (log entry 17). -/
def Obligations.HostKeepsInvariant : Prop :=
  ∀ (k m : Session), Inv k.machine → (sessionStep k = some m ∨ ∃ a, hostAct k a = some m) → Inv m.machine

/-- R211, R190 (D9): of the host's actions and the steps, only reset leaves FAULTED. The session is the model's choice
(log entry 17). -/
def Obligations.OnlyResetLeavesFaulted : Prop :=
  ∀ (k m : Session), k.machine.run = .faulted → (sessionStep k = some m ∨ ∃ a, a ≠ .reset ∧ hostAct k a = some m) →
    m.machine.run = .faulted ∧ m.machine.fault = k.machine.fault

/-- The invariant holds at reset. -/
def Obligations.ResetMeetsInvariant : Prop := Inv State.reset

/-- 10 section 11, 70 section 1 (the spec's decisions D9 to D11): the reset values; the host's reset gives them in any
state, keeps the parameters, discards the fault record and is a running machine. -/
def Obligations.ResetValues : Prop :=
  ∀ s : State,
    AfterReset (hostReset s) ∧ (hostReset s).params = s.params ∧ (hostReset s).periph = s.params.periphReset ∧
    (∀ r, (hostReset s).reg r = 0#8) ∧ (hostReset s).sp = 0#16 ∧
    (∀ addr : Word, 0x8000 ≤ addr.toNat → addr.toNat < 0xA000 → memRead (hostReset s) addr = .ok 0#8) ∧
    (∀ addr : Word, 0xFF00 ≤ addr.toNat → addr.toNat < 0xFF80 → memRead (hostReset s) addr = .ok 0#8) ∧
    hostReset State.reset = State.reset

/-- R212, R214: the first step after reset, whatever the registers and memories hold (R33), fetches `BOOT_IMAGE[0]`; a
boot image of length 0 makes it raise AddressingError(0x0000, read). -/
def Obligations.FirstFetchIsTheBootImage : Prop :=
  ∀ s : State, AfterReset s →
    (s.params.bootImage.len = 0 → step s = .next (raise s (.addressing 0#16 .read))) ∧
    (0 < s.params.bootImage.len → memRead s s.pc = .ok (Memory.read s.params.bootImage.cells 0))
end

