-- ==== Sys2Proof/Laws/Bytes.lean ====
section
/-! SUPPORT. The byte-order helpers, the flag setter bit by bit, and the numbers behind the operand forms. -/

namespace Sys2Proof.Machine

open Sys2Proof

@[simp] theorem joinBytes_toNat (hi lo : Byte) : (joinBytes hi lo).toNat = hi.toNat * 256 + lo.toNat := by
  have h1 : hi.toNat <<< 8 < 2 ^ 16 := by
    have := hi.isLt
    rw [Nat.shiftLeft_eq]; omega
  have h2 := lo.isLt
  unfold joinBytes
  have h3 := hi.isLt
  rw [BitVec.toNat_or, BitVec.toNat_shiftLeft, BitVec.toNat_setWidth, BitVec.toNat_setWidth,
    Nat.mod_eq_of_lt (a := hi.toNat) (by omega), Nat.mod_eq_of_lt h1,
    Nat.mod_eq_of_lt (a := lo.toNat) (by omega), ← Nat.shiftLeft_add_eq_or_of_lt h2, Nat.shiftLeft_eq]

@[simp] theorem hiByte_toNat (v : Word) : (hiByte v).toNat = v.toNat / 256 := by
  have := v.isLt
  simp only [hiByte, BitVec.toNat_setWidth, BitVec.toNat_ushiftRight, Nat.shiftRight_eq_div_pow]
  omega

@[simp] theorem loByte_toNat (v : Word) : (loByte v).toNat = v.toNat % 256 := by
  simp [loByte]

@[simp] theorem joinBytes_hi_lo (v : Word) : joinBytes (hiByte v) (loByte v) = v := by
  apply BitVec.eq_of_toNat_eq
  simp only [joinBytes_toNat, hiByte_toNat, loByte_toNat]
  omega

@[simp] theorem hiByte_join (hi lo : Byte) : hiByte (joinBytes hi lo) = hi := by
  apply BitVec.eq_of_toNat_eq
  have := lo.isLt
  simp only [joinBytes_toNat, hiByte_toNat]
  omega

@[simp] theorem loByte_join (hi lo : Byte) : loByte (joinBytes hi lo) = lo := by
  apply BitVec.eq_of_toNat_eq
  have := lo.isLt
  simp only [joinBytes_toNat, loByte_toNat]
  omega

/-- The port-style address is a plain sum: it never wraps (R83, R159). -/
@[simp] theorem portAddr_toNat (n : Byte) : (portAddr n).toNat = 0xFF00 + n.toNat := by
  have := n.isLt
  simp only [portAddr, BitVec.toNat_add, BitVec.toNat_setWidth, BitVec.toNat_ofNat]
  omega

/-- `sext_16` is sign extension: two's complement (R6, D14). -/
theorem sext16_eq_signExtend : ∀ b : Byte, sext16 b = b.signExtend 16 := by decide

/-- A setter writes its own bit and no other (R22). -/
theorem getLsbD_setFlag (f : Byte) (k : Flag) (v : Bool) (i : Nat) :
    (setFlag f k v).getLsbD i = if i = k.pos then v else f.getLsbD i := by
  by_cases hi : i < 8
  · cases k <;> cases v <;> interval_cases i <;> simp [setFlag, Flag.pos]
  · have h1 : (setFlag f k v).getLsbD i = false := BitVec.getLsbD_of_ge _ _ (by omega)
    have h2 : f.getLsbD i = false := BitVec.getLsbD_of_ge _ _ (by omega)
    have h3 : i ≠ k.pos := by cases k <;> simp only [Flag.pos] <;> omega
    simp [h1, h2, h3]

/-- One directive of CommitFlags, bit by bit (R108). -/
theorem getLsbD_commitOne (f : Byte) (k : Flag) (d : Option Bool) (i : Nat) :
    (commitOne f k d).getLsbD i = if i = k.pos then d.getD (f.getLsbD i) else f.getLsbD i := by
  cases d with
  | none => simp [commitOne]
  | some v => simp [commitOne, getLsbD_setFlag]

/-- CommitFlags, bit by bit (R108). -/
theorem getLsbD_commitFlags (ds : Directives) (f : Byte) (i : Nat) :
    (commitFlags ds f).getLsbD i =
      if i = 7 then ds.dZ.getD (f.getLsbD 7) else if i = 6 then ds.dN.getD (f.getLsbD 6)
      else if i = 5 then ds.dH.getD (f.getLsbD 5) else if i = 4 then ds.dC.getD (f.getLsbD 4)
      else f.getLsbD i := by
  simp only [commitFlags, getLsbD_commitOne, Flag.pos]
  by_cases h7 : i = 7
  · subst h7; simp
  by_cases h6 : i = 6
  · subst h6; simp
  by_cases h5 : i = 5
  · subst h5; simp
  by_cases h4 : i = 4
  · subst h4; simp
  simp [h7, h6, h5, h4]

@[simp] theorem commitFlags_unset (f : Byte) : commitFlags .unset f = f := rfl

end Sys2Proof.Machine
end

