-- ==== Sys2Proof/Laws/Memory.lean ====
section
/-! SUPPORT. The byte store: read after write, every other offset unchanged, and that every operation keeps the canonical form. -/

namespace Sys2Proof.Machine

open Sys2Proof

theorem Memory.read_erase (m : Memory) (off o : Nat) :
    Memory.read (Memory.erase m off) o = if o = off then unlisted else Memory.read m o := by
  induction m with
  | nil => simp [Memory.erase, Memory.read]
  | cons cell rest ih =>
    simp only [Memory.erase, List.filter_cons] at ih ⊢
    by_cases hc : cell.1 = off
    · simp only [hc, bne_self_eq_false, Bool.false_eq_true, if_false, ih, Memory.read]
      by_cases ho : o = off
      · simp [ho]
      · simp [ho, Ne.symm ho]
    · simp only [bne_iff_ne, ne_eq, hc, not_false_eq_true, if_true, Memory.read, ih]
      by_cases ho : o = off
      · subst ho; simp [hc]
      · simp [ho]

theorem Memory.read_place (m : Memory) (off o : Nat) (v : Byte) (h : Memory.read m off = unlisted)
    (hne : ∀ cell ∈ m, cell.1 ≠ off) :
    Memory.read (Memory.place m off v) o = if o = off then v else Memory.read m o := by
  induction m with
  | nil =>
    by_cases ho : o = off
    · simp [Memory.place, Memory.read, ho]
    · simp [Memory.place, Memory.read, ho, Ne.symm ho]
  | cons cell rest ih =>
    have hc : cell.1 ≠ off := hne cell (by simp)
    have hr : Memory.read rest off = unlisted := by simpa [Memory.read, hc] using h
    have ih := ih hr (fun c hm => hne c (by simp [hm]))
    by_cases hl : off < cell.1
    · by_cases ho : o = off
      · simp [Memory.place, hl, Memory.read, ho]
      · simp [Memory.place, hl, Memory.read, ho, Ne.symm ho]
    · by_cases ho : o = off
      · subst ho; simp [Memory.place, hl, Memory.read, hc, ih]
      · simp [Memory.place, hl, Memory.read, ho, ih]

theorem Memory.erase_ne (m : Memory) (off : Nat) : ∀ cell ∈ Memory.erase m off, cell.1 ≠ off := by
  intro cell h
  simpa [Memory.erase] using (List.mem_filter.mp h).2

/-- The one read law of `write`: the written offset reads as the byte, every other one as before. -/
theorem Memory.read_write (m : Memory) (off o : Nat) (v : Byte) :
    Memory.read (Memory.write m off v) o = if o = off then v else Memory.read m o := by
  unfold Memory.write
  by_cases hv : v = unlisted
  · simp [hv, Memory.read_erase]
  · simp only [hv, if_false]
    rw [Memory.read_place _ _ _ _ (by simp [Memory.read_erase]) (Memory.erase_ne m off), Memory.read_erase]
    by_cases ho : o = off <;> simp [ho]

theorem Memory.mem_place (m : Memory) (off : Nat) (v : Byte) (cell : Host.Cell) :
    cell ∈ Memory.place m off v ↔ cell = (off, v) ∨ cell ∈ m := by
  induction m with
  | nil => simp [Memory.place]
  | cons head rest ih =>
    by_cases hl : off < head.1
    · simp [Memory.place, hl]
    · simp only [Memory.place, hl, if_false, List.mem_cons, ih]
      tauto

theorem Memory.erase_wf {m : Memory} (off : Nat) (h : Memory.wf m) : Memory.wf (Memory.erase m off) :=
  ⟨h.1.filter _, fun cell hm => h.2 cell (List.mem_filter.mp hm).1⟩

theorem Memory.place_wf {m : Memory} {off : Nat} {v : Byte} (h : Memory.wf m) (hv : v ≠ unlisted)
    (hne : ∀ cell ∈ m, cell.1 ≠ off) : Memory.wf (Memory.place m off v) := by
  refine ⟨?_, fun cell hm => ?_⟩
  · induction m with
    | nil => simp [Memory.place]
    | cons head rest ih =>
      have hp := List.pairwise_cons.mp h.1
      by_cases hl : off < head.1
      · simp only [Memory.place, hl, if_true]
        refine List.pairwise_cons.mpr ⟨fun c hc => ?_, h.1⟩
        rcases List.mem_cons.mp hc with rfl | hc
        · exact hl
        · exact lt_trans hl (hp.1 c hc)
      · simp only [Memory.place, hl, if_false]
        refine List.pairwise_cons.mpr ⟨fun c hc => ?_, ?_⟩
        · rcases (Memory.mem_place rest off v c).mp hc with rfl | hc
          · have := hne head (by simp)
            simp only; omega
          · exact hp.1 c hc
        · exact ih ⟨hp.2, fun c hc => h.2 c (by simp [hc])⟩ (fun c hc => hne c (by simp [hc]))
  · rcases (Memory.mem_place m off v cell).mp hm with rfl | hm
    · exact hv
    · exact h.2 cell hm

/-- Every write keeps the canonical form. -/
theorem Memory.write_wf {m : Memory} (off : Nat) (v : Byte) (h : Memory.wf m) :
    Memory.wf (Memory.write m off v) := by
  unfold Memory.write
  by_cases hv : v = unlisted
  · simpa [hv] using Memory.erase_wf off h
  · simpa [hv] using Memory.place_wf (Memory.erase_wf off h) hv (Memory.erase_ne m off)

/-- A write below a bound keeps every offset below it. -/
theorem Memory.write_within {m : Memory} {bound off : Nat} (v : Byte) (h : Memory.within bound m) (ho : off < bound) :
    Memory.within bound (Memory.write m off v) := by
  have he : Memory.within bound (Memory.erase m off) := fun c hc => h c (List.mem_filter.mp hc).1
  unfold Memory.write
  by_cases hv : v = unlisted
  · simpa [hv] using he
  · simp only [hv, if_false]
    intro c hc
    rcases (Memory.mem_place _ off v c).mp hc with rfl | hc
    · exact ho
    · exact he c hc

/-- The empty store, `State.reset`'s two memories, is canonical. -/
theorem Memory.nil_wf : Memory.wf [] := ⟨List.Pairwise.nil, fun _ h => absurd h List.not_mem_nil⟩

theorem State.reset_memories_wf : Memory.wf State.reset.vram ∧ Memory.wf State.reset.io :=
  ⟨Memory.nil_wf, Memory.nil_wf⟩

/-- Loading an image byte keeps the canonical form (the host's loading, R213). -/
theorem loadImage_wf {im : Image} (off : Nat) (v : Byte) (h : Memory.wf im.cells) :
    Memory.wf (loadImage im off v).cells := Memory.write_wf off v h

/-- A loaded image is canonical. -/
theorem imageOf_wf (bytes : List Byte) : Memory.wf (imageOf bytes).cells := by
  have key : ∀ (l : List Byte) (n : Nat), ((l.zipIdx n).map (fun p => (p.2, p.1))).Pairwise
      (fun x y : Host.Cell => x.1 < y.1) := by
    intro l
    induction l with
    | nil => intro n; simp
    | cons v rest ih =>
      intro n
      simp only [List.zipIdx_cons, List.map_cons]
      refine List.pairwise_cons.mpr ⟨fun c hc => ?_, ih (n + 1)⟩
      obtain ⟨q, hq, rfl⟩ := List.mem_map.mp hc
      have := List.le_snd_of_mem_zipIdx hq
      show n < q.2
      omega
  exact ⟨(key bytes 0).filter _, fun c hc => by simpa using (List.mem_filter.mp hc).2⟩

/-- A loaded image lists no offset at or beyond its length. -/
theorem imageOf_within (bytes : List Byte) : Memory.within (imageOf bytes).len (imageOf bytes).cells := by
  intro c hc
  obtain ⟨q, hq, rfl⟩ := List.mem_map.mp (List.mem_filter.mp hc).1
  have := List.snd_lt_of_mem_zipIdx hq
  simpa [imageOf] using this

end Sys2Proof.Machine
end

