-- ==== Sys2Proof/Laws/Bus.lean ====
section
/-! SUPPORT. The bus: what `select` answers with its bounds, everything `memRead` and `memWrite` can do, and that `memRead` looks only at the bus state. -/

namespace Sys2Proof.Machine

open Sys2Proof

/-- Everything `select` can answer (R43). -/
theorem select_cases (bootEn : Bool) (addr : Word) :
    (bootEn = true ∧ addr.toNat < 0x100 ∧ select bootEn addr = some (.boot, addr.toNat)) ∨
    (addr.toNat < 0x4000 ∧ (bootEn = true → 0x100 ≤ addr.toNat) ∧ select bootEn addr = some (.cart, addr.toNat)) ∨
    (0x8000 ≤ addr.toNat ∧ addr.toNat < 0xA000 ∧ select bootEn addr = some (.vram, addr.toNat - 0x8000)) ∨
    (0xFF00 ≤ addr.toNat ∧ addr.toNat < 0xFF80 ∧ select bootEn addr = some (.io, addr.toNat - 0xFF00)) ∨
    (0x4000 ≤ addr.toNat ∧ (addr.toNat < 0x8000 ∨ 0xA000 ≤ addr.toNat) ∧
      (addr.toNat < 0xFF00 ∨ 0xFF80 ≤ addr.toNat) ∧ select bootEn addr = none) := by
  unfold select
  by_cases h1 : bootEn = true ∧ addr.toNat < 0x100
  · exact .inl ⟨h1.1, h1.2, by simp [h1]⟩
  · by_cases h2 : addr.toNat < 0x4000
    · refine .inr (.inl ⟨h2, fun hb => ?_, by simp only [h1, h2, if_true, if_false]⟩)
      by_contra hlt
      exact h1 ⟨hb, by omega⟩
    · by_cases h3 : 0x8000 ≤ addr.toNat ∧ addr.toNat < 0xA000
      · exact .inr (.inr (.inl ⟨h3.1, h3.2, by simp only [h1, h2, h3, if_false]; simp⟩))
      · by_cases h4 : 0xFF00 ≤ addr.toNat ∧ addr.toNat < 0xFF80
        · exact .inr (.inr (.inr (.inl ⟨h4.1, h4.2, by simp only [h1, h2, h3, h4, if_false]; simp⟩)))
        · exact .inr (.inr (.inr (.inr ⟨by omega, by omega, by omega, by
            simp only [h1, h2, h3, h4, if_false]⟩)))

/-- `memRead` depends on the overlay, the images, and the two memories alone. -/
theorem memRead_congr {s t : State} (hb : t.bootEn = s.bootEn) (hp : t.params = s.params) (hv : t.vram = s.vram)
    (hi : t.io = s.io) (addr : Word) : memRead t addr = memRead s addr := by
  simp only [memRead, hb, hp, hv, hi]

/-- A read's only error is AddressingError with its address (R184). -/
theorem memRead_error {s : State} {addr : Word} {err : FatalError} (h : memRead s addr = .error err) :
    err = .addressing addr .read := by
  unfold memRead at h
  split at h <;> (try split at h) <;> simp_all

/-- Everything a write can do (R55): store in video RAM, call the hook and store in the I/O block, or raise. -/
theorem memWrite_cases (s : State) (addr : Word) (v : Byte) :
    (0x8000 ≤ addr.toNat ∧ addr.toNat < 0xA000 ∧
      memWrite s addr v = .ok { s with vram := Memory.write s.vram (addr.toNat - 0x8000) v }) ∨
    (0xFF00 ≤ addr.toNat ∧ addr.toNat < 0xFF80 ∧ addr ∈ s.params.ioRecognised ∧
      memWrite s addr v = .ok { s with periph := Config.ioHook addr v s.periph,
                                       io := Memory.write s.io (addr.toNat - 0xFF00) v }) ∨
    (addr.toNat < 0x4000 ∧ memWrite s addr v = .error (.writeProtected addr)) ∨
    (0x4000 ≤ addr.toNat ∧ (addr.toNat < 0x8000 ∨ 0xA000 ≤ addr.toNat) ∧
      (addr.toNat < 0xFF00 ∨ 0xFF80 ≤ addr.toNat) ∧ memWrite s addr v = .error (.addressing addr .write)) ∨
    (0xFF00 ≤ addr.toNat ∧ addr.toNat < 0xFF80 ∧ addr ∉ s.params.ioRecognised ∧
      memWrite s addr v = .error (.unknownRegister addr v)) := by
  rcases select_cases s.bootEn addr with ⟨_, h2, h3⟩ | ⟨h2, _, h3⟩ | ⟨h1, h2, h3⟩ | ⟨h1, h2, h3⟩ | ⟨h1, h2, h3, h4⟩
  · exact .inr (.inr (.inl ⟨by omega, by simp [memWrite, h3]⟩))
  · exact .inr (.inr (.inl ⟨h2, by simp [memWrite, h3]⟩))
  · exact .inl ⟨h1, h2, by simp [memWrite, h3]⟩
  · by_cases hr : addr ∈ s.params.ioRecognised
    · exact .inr (.inl ⟨h1, h2, hr, by simp [memWrite, h3, ioHook, hr]⟩)
    · exact .inr (.inr (.inr (.inr ⟨h1, h2, hr, by simp [memWrite, h3, ioHook, hr]⟩)))
  · exact .inr (.inr (.inr (.inl ⟨h1, h2, h3, by simp [memWrite, h4]⟩)))

/-- What a write that succeeds leaves as it was. -/
theorem memWrite_frame {s t : State} {addr : Word} {v : Byte} (h : memWrite s addr v = .ok t) :
    t.a = s.a ∧ t.b = s.b ∧ t.c = s.c ∧ t.d = s.d ∧ t.e = s.e ∧ t.f = s.f ∧ t.h = s.h ∧ t.l = s.l ∧
    t.pc = s.pc ∧ t.sp = s.sp ∧ t.bootEn = s.bootEn ∧ t.cycles = s.cycles ∧ t.run = s.run ∧ t.fault = s.fault ∧
    t.params = s.params := by
  rcases memWrite_cases s addr v with ⟨_, _, e⟩ | ⟨_, _, _, e⟩ | ⟨_, e⟩ | ⟨_, _, _, e⟩ | ⟨_, _, _, e⟩ <;>
    rw [e] at h <;> cases h <;> simp

end Sys2Proof.Machine
end

