-- ==== Sys2Proof/Laws/State.lean ====
section
/-! SUPPORT. One lemma per field per named update of `State`, true by rfl, and the read-after-write laws of the register file. -/

namespace Sys2Proof.Machine

open Sys2Proof

section
variable (s : State) (r : Reg8) (p : Pair) (v : Byte) (w : Word) (n : Nat) (k : Flag) (x : Bool) (err : FatalError)

/-! setReg: the eight registers through `reg`, every other field by name. -/

@[simp] theorem reg_setReg_same : (s.setReg r v).reg r = v := by cases r <;> rfl
theorem reg_setReg_of_ne {q : Reg8} (h : q ≠ r) : (s.setReg r v).reg q = s.reg q := by
  cases r <;> cases q <;> first | rfl | exact absurd rfl h
theorem reg_setReg (q : Reg8) : (s.setReg r v).reg q = if q = r then v else s.reg q := by
  by_cases h : q = r
  · subst h; simp
  · simp [h, reg_setReg_of_ne s r v h]
@[simp] theorem setReg_pc : (s.setReg r v).pc = s.pc := by cases r <;> rfl
@[simp] theorem setReg_sp : (s.setReg r v).sp = s.sp := by cases r <;> rfl
@[simp] theorem setReg_bootEn : (s.setReg r v).bootEn = s.bootEn := by cases r <;> rfl
@[simp] theorem setReg_vram : (s.setReg r v).vram = s.vram := by cases r <;> rfl
@[simp] theorem setReg_io : (s.setReg r v).io = s.io := by cases r <;> rfl
@[simp] theorem setReg_cycles : (s.setReg r v).cycles = s.cycles := by cases r <;> rfl
@[simp] theorem setReg_run : (s.setReg r v).run = s.run := by cases r <;> rfl
@[simp] theorem setReg_fault : (s.setReg r v).fault = s.fault := by cases r <;> rfl
@[simp] theorem setReg_periph : (s.setReg r v).periph = s.periph := by cases r <;> rfl
@[simp] theorem setReg_params : (s.setReg r v).params = s.params := by cases r <;> rfl

/-! setPair, writeReg, writePair. -/

@[simp] theorem setPair_pc : (s.setPair p w).pc = s.pc := by cases p <;> rfl
@[simp] theorem writeReg_pc : (s.writeReg r n).pc = s.pc := by cases r <;> rfl
@[simp] theorem writePair_pc : (s.writePair p n).pc = s.pc := by cases p <;> rfl
@[simp] theorem setPair_sp : (s.setPair p w).sp = s.sp := by cases p <;> rfl
@[simp] theorem writeReg_sp : (s.writeReg r n).sp = s.sp := by cases r <;> rfl
@[simp] theorem writePair_sp : (s.writePair p n).sp = s.sp := by cases p <;> rfl
@[simp] theorem setPair_bootEn : (s.setPair p w).bootEn = s.bootEn := by cases p <;> rfl
@[simp] theorem writeReg_bootEn : (s.writeReg r n).bootEn = s.bootEn := by cases r <;> rfl
@[simp] theorem writePair_bootEn : (s.writePair p n).bootEn = s.bootEn := by cases p <;> rfl
@[simp] theorem setPair_vram : (s.setPair p w).vram = s.vram := by cases p <;> rfl
@[simp] theorem writeReg_vram : (s.writeReg r n).vram = s.vram := by cases r <;> rfl
@[simp] theorem writePair_vram : (s.writePair p n).vram = s.vram := by cases p <;> rfl
@[simp] theorem setPair_io : (s.setPair p w).io = s.io := by cases p <;> rfl
@[simp] theorem writeReg_io : (s.writeReg r n).io = s.io := by cases r <;> rfl
@[simp] theorem writePair_io : (s.writePair p n).io = s.io := by cases p <;> rfl
@[simp] theorem setPair_cycles : (s.setPair p w).cycles = s.cycles := by cases p <;> rfl
@[simp] theorem writeReg_cycles : (s.writeReg r n).cycles = s.cycles := by cases r <;> rfl
@[simp] theorem writePair_cycles : (s.writePair p n).cycles = s.cycles := by cases p <;> rfl
@[simp] theorem setPair_run : (s.setPair p w).run = s.run := by cases p <;> rfl
@[simp] theorem writeReg_run : (s.writeReg r n).run = s.run := by cases r <;> rfl
@[simp] theorem writePair_run : (s.writePair p n).run = s.run := by cases p <;> rfl
@[simp] theorem setPair_fault : (s.setPair p w).fault = s.fault := by cases p <;> rfl
@[simp] theorem writeReg_fault : (s.writeReg r n).fault = s.fault := by cases r <;> rfl
@[simp] theorem writePair_fault : (s.writePair p n).fault = s.fault := by cases p <;> rfl
@[simp] theorem setPair_periph : (s.setPair p w).periph = s.periph := by cases p <;> rfl
@[simp] theorem writeReg_periph : (s.writeReg r n).periph = s.periph := by cases r <;> rfl
@[simp] theorem writePair_periph : (s.writePair p n).periph = s.periph := by cases p <;> rfl
@[simp] theorem setPair_params : (s.setPair p w).params = s.params := by cases p <;> rfl
@[simp] theorem writeReg_params : (s.writeReg r n).params = s.params := by cases r <;> rfl
@[simp] theorem writePair_params : (s.writePair p n).params = s.params := by cases p <;> rfl

/-! writePc. -/

@[simp] theorem writePc_a : (s.writePc n).a = s.a := rfl
@[simp] theorem writePc_b : (s.writePc n).b = s.b := rfl
@[simp] theorem writePc_c : (s.writePc n).c = s.c := rfl
@[simp] theorem writePc_d : (s.writePc n).d = s.d := rfl
@[simp] theorem writePc_e : (s.writePc n).e = s.e := rfl
@[simp] theorem writePc_f : (s.writePc n).f = s.f := rfl
@[simp] theorem writePc_h : (s.writePc n).h = s.h := rfl
@[simp] theorem writePc_l : (s.writePc n).l = s.l := rfl
@[simp] theorem writePc_sp : (s.writePc n).sp = s.sp := rfl
@[simp] theorem writePc_bootEn : (s.writePc n).bootEn = s.bootEn := rfl
@[simp] theorem writePc_vram : (s.writePc n).vram = s.vram := rfl
@[simp] theorem writePc_io : (s.writePc n).io = s.io := rfl
@[simp] theorem writePc_cycles : (s.writePc n).cycles = s.cycles := rfl
@[simp] theorem writePc_run : (s.writePc n).run = s.run := rfl
@[simp] theorem writePc_fault : (s.writePc n).fault = s.fault := rfl
@[simp] theorem writePc_periph : (s.writePc n).periph = s.periph := rfl
@[simp] theorem writePc_params : (s.writePc n).params = s.params := rfl

/-! writeSp. -/

@[simp] theorem writeSp_a : (s.writeSp n).a = s.a := rfl
@[simp] theorem writeSp_b : (s.writeSp n).b = s.b := rfl
@[simp] theorem writeSp_c : (s.writeSp n).c = s.c := rfl
@[simp] theorem writeSp_d : (s.writeSp n).d = s.d := rfl
@[simp] theorem writeSp_e : (s.writeSp n).e = s.e := rfl
@[simp] theorem writeSp_f : (s.writeSp n).f = s.f := rfl
@[simp] theorem writeSp_h : (s.writeSp n).h = s.h := rfl
@[simp] theorem writeSp_l : (s.writeSp n).l = s.l := rfl
@[simp] theorem writeSp_pc : (s.writeSp n).pc = s.pc := rfl
@[simp] theorem writeSp_bootEn : (s.writeSp n).bootEn = s.bootEn := rfl
@[simp] theorem writeSp_vram : (s.writeSp n).vram = s.vram := rfl
@[simp] theorem writeSp_io : (s.writeSp n).io = s.io := rfl
@[simp] theorem writeSp_cycles : (s.writeSp n).cycles = s.cycles := rfl
@[simp] theorem writeSp_run : (s.writeSp n).run = s.run := rfl
@[simp] theorem writeSp_fault : (s.writeSp n).fault = s.fault := rfl
@[simp] theorem writeSp_periph : (s.writeSp n).periph = s.periph := rfl
@[simp] theorem writeSp_params : (s.writeSp n).params = s.params := rfl

/-! writeFlag. -/

@[simp] theorem writeFlag_a : (s.writeFlag k x).a = s.a := rfl
@[simp] theorem writeFlag_b : (s.writeFlag k x).b = s.b := rfl
@[simp] theorem writeFlag_c : (s.writeFlag k x).c = s.c := rfl
@[simp] theorem writeFlag_d : (s.writeFlag k x).d = s.d := rfl
@[simp] theorem writeFlag_e : (s.writeFlag k x).e = s.e := rfl
@[simp] theorem writeFlag_h : (s.writeFlag k x).h = s.h := rfl
@[simp] theorem writeFlag_l : (s.writeFlag k x).l = s.l := rfl
@[simp] theorem writeFlag_pc : (s.writeFlag k x).pc = s.pc := rfl
@[simp] theorem writeFlag_sp : (s.writeFlag k x).sp = s.sp := rfl
@[simp] theorem writeFlag_bootEn : (s.writeFlag k x).bootEn = s.bootEn := rfl
@[simp] theorem writeFlag_vram : (s.writeFlag k x).vram = s.vram := rfl
@[simp] theorem writeFlag_io : (s.writeFlag k x).io = s.io := rfl
@[simp] theorem writeFlag_cycles : (s.writeFlag k x).cycles = s.cycles := rfl
@[simp] theorem writeFlag_run : (s.writeFlag k x).run = s.run := rfl
@[simp] theorem writeFlag_fault : (s.writeFlag k x).fault = s.fault := rfl
@[simp] theorem writeFlag_periph : (s.writeFlag k x).periph = s.periph := rfl
@[simp] theorem writeFlag_params : (s.writeFlag k x).params = s.params := rfl
@[simp] theorem writePc_pc : (s.writePc n).pc = BitVec.ofNat 16 n := rfl
@[simp] theorem writeSp_sp : (s.writeSp n).sp = BitVec.ofNat 16 n := rfl
@[simp] theorem writeFlag_f : (s.writeFlag k x).f = setFlag s.f k x := rfl

/-! raise. -/

@[simp] theorem raise_a : (raise s err).a = s.a := rfl
@[simp] theorem raise_b : (raise s err).b = s.b := rfl
@[simp] theorem raise_c : (raise s err).c = s.c := rfl
@[simp] theorem raise_d : (raise s err).d = s.d := rfl
@[simp] theorem raise_e : (raise s err).e = s.e := rfl
@[simp] theorem raise_f : (raise s err).f = s.f := rfl
@[simp] theorem raise_h : (raise s err).h = s.h := rfl
@[simp] theorem raise_l : (raise s err).l = s.l := rfl
@[simp] theorem raise_pc : (raise s err).pc = s.pc := rfl
@[simp] theorem raise_sp : (raise s err).sp = s.sp := rfl
@[simp] theorem raise_bootEn : (raise s err).bootEn = s.bootEn := rfl
@[simp] theorem raise_vram : (raise s err).vram = s.vram := rfl
@[simp] theorem raise_io : (raise s err).io = s.io := rfl
@[simp] theorem raise_cycles : (raise s err).cycles = s.cycles := rfl
@[simp] theorem raise_periph : (raise s err).periph = s.periph := rfl
@[simp] theorem raise_params : (raise s err).params = s.params := rfl
@[simp] theorem raise_run : (raise s err).run = .faulted := rfl
@[simp] theorem raise_fault : (raise s err).fault = some { error := err, pc := s.pc } := rfl

/-! hostSetBootEn. -/

@[simp] theorem hostSetBootEn_a : (hostSetBootEn s x).a = s.a := rfl
@[simp] theorem hostSetBootEn_b : (hostSetBootEn s x).b = s.b := rfl
@[simp] theorem hostSetBootEn_c : (hostSetBootEn s x).c = s.c := rfl
@[simp] theorem hostSetBootEn_d : (hostSetBootEn s x).d = s.d := rfl
@[simp] theorem hostSetBootEn_e : (hostSetBootEn s x).e = s.e := rfl
@[simp] theorem hostSetBootEn_f : (hostSetBootEn s x).f = s.f := rfl
@[simp] theorem hostSetBootEn_h : (hostSetBootEn s x).h = s.h := rfl
@[simp] theorem hostSetBootEn_l : (hostSetBootEn s x).l = s.l := rfl
@[simp] theorem hostSetBootEn_pc : (hostSetBootEn s x).pc = s.pc := rfl
@[simp] theorem hostSetBootEn_sp : (hostSetBootEn s x).sp = s.sp := rfl
@[simp] theorem hostSetBootEn_vram : (hostSetBootEn s x).vram = s.vram := rfl
@[simp] theorem hostSetBootEn_io : (hostSetBootEn s x).io = s.io := rfl
@[simp] theorem hostSetBootEn_cycles : (hostSetBootEn s x).cycles = s.cycles := rfl
@[simp] theorem hostSetBootEn_run : (hostSetBootEn s x).run = s.run := rfl
@[simp] theorem hostSetBootEn_fault : (hostSetBootEn s x).fault = s.fault := rfl
@[simp] theorem hostSetBootEn_periph : (hostSetBootEn s x).periph = s.periph := rfl
@[simp] theorem hostSetBootEn_params : (hostSetBootEn s x).params = s.params := rfl
@[simp] theorem hostSetBootEn_bootEn : (hostSetBootEn s x).bootEn = x := rfl

/-! hostLoad and hostReset: the parameters. -/

@[simp] theorem hostLoad_params (z : HostLoad) : (hostLoad s z).params = z.params := rfl
@[simp] theorem hostReset_params : (hostReset s).params = s.params := rfl
@[simp] theorem hostReset_run : (hostReset s).run = .running := rfl
@[simp] theorem hostReset_fault : (hostReset s).fault = none := rfl

end

end Sys2Proof.Machine
end

