-- ==== Sys2Proof/Laws/Step.lean ====
section
/-! SUPPORT. What a step can do: the inversion of `conclude` and `perform`, of the fetch, of `exec` and of `step`. -/

namespace Sys2Proof.Machine

open Sys2Proof

/-- The state a completed effect ends in (R108, R109). -/
abbrev completed (r : Effect) : State :=
  { r.work with f := commitFlags r.dirs r.work.f, cycles := r.work.cycles + r.cost }

/-- The working copy with PC past an instruction of `len` bytes (R17). -/
abbrev pastFetch (s : State) (len : Nat) : State := { s with pc := s.pc + BitVec.ofNat 16 len }

theorem perform_ok {len : Nat} {eff : State → Except FatalError Effect} {s : State} {r : Effect}
    (h : eff (pastFetch s len) = .ok r) : perform len eff s = .next (completed r) := by
  simp only [perform, h, conclude]

theorem perform_error {len : Nat} {eff : State → Except FatalError Effect} {s : State} {err : FatalError}
    (h : eff (pastFetch s len) = .error err) : perform len eff s = .next (raise s err) := by
  simp only [perform, h, conclude]

/-- Everything `perform` can do: it always answers a next state, the raise or the completed effect (R8, R110). -/
theorem perform_cases {len : Nat} {eff : State → Except FatalError Effect} {s t : State}
    (h : perform len eff s = .next t) :
    (∃ err, eff (pastFetch s len) = .error err ∧ t = raise s err) ∨
    (∃ r, eff (pastFetch s len) = .ok r ∧ t = completed r) := by
  cases he : eff (pastFetch s len) with
  | error err => rw [perform_error he] at h; cases h; exact .inl ⟨err, rfl, rfl⟩
  | ok r => rw [perform_ok he] at h; cases h; exact .inr ⟨r, rfl, rfl⟩

/-- The Execute phase of each instruction, as the meaning runs it. -/
def effOf : Instr → State → Except FatalError Effect
  | .ldBcD16 v => effLdPair .bc v
  | .ldDeD16 v => effLdPair .de v
  | .ldHlD16 v => effLdPair .hl v
  | .ldSpD16 v => effLdSp v
  | .ldIndBcA => effStorePair .bc
  | .ldIndDeA => effStorePair .de
  | .ldIndHlDecA => effStoreHlDec
  | .ldBD8 v => effLdReg .b v
  | .ldCD8 v => effLdReg .c v
  | .ldDD8 v => effLdReg .d v
  | .ldED8 v => effLdReg .e v
  | .ldHD8 v => effLdReg .h v
  | .ldLD8 v => effLdReg .l v
  | .ldAD8 v => effLdReg .a v
  | .incB => effInc .b
  | .incC => effInc .c
  | .incD => effInc .d
  | .incE => effInc .e
  | .incH => effInc .h
  | .incL => effInc .l
  | .incA => effInc .a
  | .xorA => effXorA
  | .jrNzE8 e => effJrNz e
  | .prefixCb op2 => effPrefixCb op2
  | .ldhA8A n => effStoreHigh n
  | .ldIndCA => effStoreC
  | .bit7H => effBit7H

/-- `exec` is `perform` of the instruction's length and effect. -/
theorem exec_eq_perform (i : Instr) (s : State) : exec i s = perform i.length (effOf i) s := by
  cases i <;> rfl

/-- Everything `exec` can do. -/
theorem exec_cases {i : Instr} {s t : State} (h : exec i s = .next t) :
    (∃ err, effOf i (pastFetch s i.length) = .error err ∧ t = raise s err) ∨
    (∃ r, effOf i (pastFetch s i.length) = .ok r ∧ t = completed r) :=
  perform_cases (exec_eq_perform i s ▸ h)

/-- `exec` always answers a next state. -/
theorem exec_next (i : Instr) (s : State) : ∃ t, exec i s = .next t := by
  rw [exec_eq_perform]
  cases he : effOf i (pastFetch s i.length) with
  | error err => exact ⟨_, perform_error he⟩
  | ok r => exact ⟨_, perform_ok he⟩

/-- What a completed effect leaves as it was, whatever the instruction: `run`, the fault record, `boot_en`, the
parameters, F (CommitFlags alone writes it, R23) and `cycles` (Advance alone adds to it). -/
theorem effOf_frame {i : Instr} {w : State} {r : Effect} (h : effOf i w = .ok r) :
    r.work.run = w.run ∧ r.work.fault = w.fault ∧ r.work.bootEn = w.bootEn ∧ r.work.params = w.params ∧
    r.work.f = w.f ∧ r.work.cycles = w.cycles := by
  cases i <;> simp only [effOf, effLdPair, effLdSp, effLdReg, effInc, effXorA, effBit7H, effPrefixCb, effJrNz,
    effStorePair, effStoreA, effStoreHlDec, effStoreHigh, effStoreC] at h
  case ldIndBcA | ldIndDeA | ldIndHlDecA | ldhA8A | ldIndCA =>
    split at h
    · cases h
    · rename_i t ht
      obtain ⟨_, _, _, _, _, hf, _, _, _, _, hb, hc, hr, hfa, hp⟩ := memWrite_frame ht
      cases h
      exact ⟨hr, hfa, hb, hp, hf, hc⟩
  case jrNzE8 => split at h <;> cases h <;> exact ⟨rfl, rfl, rfl, rfl, rfl, rfl⟩
  case prefixCb =>
    split at h
    · cases h
    · rename_i nested _
      cases nested; cases h; exact ⟨rfl, rfl, rfl, rfl, rfl, rfl⟩
  all_goals (cases h; exact ⟨rfl, rfl, rfl, rfl, rfl, rfl⟩)

/-- Everything a store's effect does, in terms of the one bus write of A at the address it computes (R145). -/
theorem effOf_store {i : Instr} {s : State} {addr : Word} (ha : storeAddr s i = some addr) :
    effOf i (pastFetch s i.length) =
      match memWrite (pastFetch s i.length) addr s.a with
      | .error err => .error err
      | .ok w => .ok ⟨if i = .ldIndHlDecA then w.setPair .hl (addr - 1#16) else w, .unset, costOf s i⟩ := by
  cases i <;> simp only [storeAddr, Option.some.injEq, reduceCtorEq] at ha <;> subst ha <;> rfl

theorem step_of_faulted {s : State} (h : s.run = .faulted) : step s = .fault .halted := by
  simp only [step, h]

theorem step_of_fetch_error {s : State} {err : FatalError} (h : s.run = .running)
    (hf : fetchInstr s = .error err) : step s = .next (raise s err) := by
  simp only [step, h, hf]

theorem step_of_fetch {s : State} {i : Instr} (h : s.run = .running) (hf : fetchInstr s = .ok i) :
    step s = exec i s := by
  simp only [step, h, hf]

/-- Everything a step can do (R101, R110). -/
theorem step_cases {s t : State} (h : step s = .next t) :
    s.run = .running ∧
    ((∃ err, fetchInstr s = .error err ∧ t = raise s err) ∨ (∃ i, fetchInstr s = .ok i ∧ exec i s = .next t)) := by
  cases hr : s.run with
  | faulted => rw [step_of_faulted hr] at h; cases h
  | running =>
    cases hf : fetchInstr s with
    | error err => rw [step_of_fetch_error hr hf] at h; cases h; exact ⟨rfl, .inl ⟨err, rfl, rfl⟩⟩
    | ok i => rw [step_of_fetch hr hf] at h; exact ⟨rfl, .inr ⟨i, rfl, h⟩⟩

/-- The bytes a fetch of `n` bytes answers, one read each (R103). -/
theorem fetchBytes_ok {s : State} {addr : Word} {n : Nat} {vs : List Byte} (h : fetchBytes s addr n = .ok vs) :
    vs.length = n ∧ codeAt s addr vs = true := by
  induction n generalizing addr vs with
  | zero => simp only [fetchBytes, Except.ok.injEq] at h; subst h; exact ⟨rfl, rfl⟩
  | succ n ih =>
    simp only [fetchBytes] at h
    split at h
    · cases h
    · rename_i v hv
      split at h
      · cases h
      · rename_i rest hrest
        cases h
        obtain ⟨h1, h2⟩ := ih hrest
        exact ⟨by simp [h1], by simp [codeAt, hv, h2]⟩

/-- Bytes that stand in memory are what a fetch of their number answers. -/
theorem fetchBytes_of_codeAt {s : State} {addr : Word} {vs : List Byte} (h : codeAt s addr vs = true) :
    fetchBytes s addr vs.length = .ok vs := by
  induction vs generalizing addr with
  | nil => rfl
  | cons v rest ih =>
    simp only [codeAt, Bool.and_eq_true, beq_iff_eq] at h
    simp [fetchBytes, h.1, ih h.2]

/-- A fetch whose first bytes stand in memory and whose next one cannot be read raises at that address (R188). -/
theorem fetchBytes_error {s : State} {addr : Word} {pre : List Byte} {err : FatalError} (n : Nat)
    (h : codeAt s addr pre = true) (he : memRead s (addr + BitVec.ofNat 16 pre.length) = .error err) :
    fetchBytes s addr (pre.length + (n + 1)) = .error err := by
  induction pre generalizing addr with
  | nil =>
    have : memRead s addr = .error err := by simpa using he
    simp [fetchBytes, this]
  | cons v rest ih =>
    simp only [codeAt, Bool.and_eq_true, beq_iff_eq] at h
    have hshift : addr + BitVec.ofNat 16 (v :: rest).length = addr + 1#16 + BitVec.ofNat 16 rest.length := by
      rw [List.length_cons, BitVec.add_assoc, BitVec.ofNat_add, BitVec.add_comm (BitVec.ofNat 16 rest.length)]
    rw [hshift] at he
    have := ih h.2 he
    rw [show (v :: rest).length + (n + 1) = (rest.length + (n + 1)) + 1 by simp; omega]
    rw [fetchBytes, h.1]; simp only [this]

end Sys2Proof.Machine
end

