-- ==== Sys2Proof/Laws/BusPort.lean ====
section
/-! SUPPORT. The multi-byte interface: where a region ends, which requests lie in it, and what the byte-by-byte transactions answer there. -/

namespace Sys2Proof.Machine

open Sys2Proof

/-- The addresses that `select` answers for are the mapped ones (R44). -/
theorem mapped_iff_select (s : State) (addr : Word) : mapped addr ↔ ∃ r off, select s.bootEn addr = some (r, off) := by
  rcases select_cases s.bootEn addr with ⟨_, h, e⟩ | ⟨h, _, e⟩ | ⟨h, _, e⟩ | ⟨h, _, e⟩ | ⟨h, _, _, e⟩ <;>
    simp [e] <;> omega

/-- The end of the region that an address selects (R41). -/
theorem regionEnd_of_select {s : State} {addr : Word} {r : Region} {off : Nat}
    (h : select s.bootEn addr = some (r, off)) :
    regionEnd s addr =
      match r with
      | .boot => min 0x100 s.params.bootImage.len
      | .cart => min 0x4000 s.params.cartImage.len
      | .vram => 0xA000
      | .io => 0xFF80 := by
  unfold regionEnd
  rcases select_cases s.bootEn addr with ⟨hb, h1, e⟩ | ⟨h1, hb, e⟩ | ⟨h1, h2, e⟩ | ⟨h1, h2, e⟩ | ⟨_, _, _, e⟩ <;>
    rw [e] at h <;> cases h
  · rw [if_pos ⟨hb, h1⟩]
  · rw [if_neg (fun hc => absurd (hb hc.1) (by omega)), if_pos h1]
  · rw [if_neg (by omega), if_neg (by omega), if_pos h2]
  · rw [if_neg (by omega), if_neg (by omega), if_neg (by omega)]

/-- The bytes after an address that lie in its region are those before the region's end (R41, R42). -/
theorem regionAt_iff {s : State} {addr : Word} {r : Region} {off : Nat} (h : select s.bootEn addr = some (r, off))
    (k : Nat) : regionAt s (addr.toNat + k) = some r ↔ addr.toNat + k < regionEnd s addr := by
  rw [regionEnd_of_select h]
  unfold regionAt
  by_cases hlt : addr.toNat + k < 0x10000
  · have sizes : storeSize s .boot = s.params.bootImage.len ∧ storeSize s .cart = s.params.cartImage.len ∧
        storeSize s .vram = 0x2000 ∧ storeSize s .io = 0x80 := ⟨rfl, rfl, rfl, rfl⟩
    have hn : (BitVec.ofNat 16 (addr.toNat + k)).toNat = addr.toNat + k := by
      rw [BitVec.toNat_ofNat]; omega
    rw [if_pos hlt]
    rcases select_cases s.bootEn addr with ⟨hb, h1, e⟩ | ⟨h1, hb, e⟩ | ⟨h1, h2, e⟩ | ⟨h1, h2, e⟩ | ⟨_, _, _, e⟩ <;>
      rw [e] at h <;> cases h <;>
      rcases select_cases s.bootEn (BitVec.ofNat 16 (addr.toNat + k)) with
        ⟨gb, g1, f⟩ | ⟨g1, gb, f⟩ | ⟨g1, g2, f⟩ | ⟨g1, g2, f⟩ | ⟨g1, g2, g3, f⟩ <;>
      rw [f] <;> rw [hn] at *
    all_goals dsimp only
    all_goals first
      | (have hg := gb hb; split_ifs <;> simp <;> omega)
      | (have hg := hb gb; split_ifs <;> simp <;> omega)
      | (split_ifs <;> simp <;> omega)
      | (simp <;> omega)
  · rw [if_neg hlt]
    cases r <;> simp <;> omega

/-- A request lies in the region its first address selects exactly when it ends by the region's end (R58). -/
theorem oneRegion_iff {s : State} {addr : Word} {r : Region} {off : Nat} (h : select s.bootEn addr = some (r, off))
    {n : Nat} (hn : 0 < n) : oneRegion s r addr n = true ↔ addr.toNat + n ≤ regionEnd s addr := by
  simp only [oneRegion, List.all_eq_true, List.mem_range, beq_iff_eq, regionAt_iff h]
  refine ⟨fun hall => ?_, fun hle k hk => by omega⟩
  have := hall (n - 1) (by omega)
  omega

/-- A request of at least two bytes is served exactly when it lies in the region (R58). -/
theorem served_iff {s : State} {addr : Word} {r : Region} {off : Nat} (h : select s.bootEn addr = some (r, off))
    {n : Nat} (hn : 2 ≤ n) : served s r addr n = true ↔ addr.toNat + n ≤ regionEnd s addr := by
  simp only [served, Bool.or_eq_true, beq_iff_eq, oneRegion_iff h (by omega : 0 < n)]
  omega

/-- A request that ends by the region's end is served, whatever its length. -/
theorem served_of_le {s : State} {addr : Word} {r : Region} {off : Nat} (h : select s.bootEn addr = some (r, off))
    {n : Nat} (hle : addr.toNat + n ≤ regionEnd s addr) : served s r addr n = true := by
  cases n with
  | zero => rfl
  | succ m => simp [served, (oneRegion_iff h (Nat.succ_pos m)).mpr hle]

/-- Everything a multi-byte read of an address that selects a region can answer (R58). -/
theorem busReadMany_eq {s : State} {addr : Word} {r : Region} {off : Nat} (h : select s.bootEn addr = some (r, off))
    (n : Nat) : busReadMany s addr n =
      if served s r addr n then
        match fetchBytes s addr n with
        | .ok vs => .done vs
        | .error err => .raised err
      else .refused := by
  simp only [busReadMany, h] <;> rfl

/-- Everything a multi-byte write at an address that selects a region can do (R58). -/
theorem busWriteMany_eq {s : State} {addr : Word} {r : Region} {off : Nat} (h : select s.bootEn addr = some (r, off))
    (vs : List Byte) : busWriteMany s addr vs =
      if served s r addr vs.length then
        match writeBytes s addr vs with
        | (none, t) => (.done (), t)
        | (some err, t) => (.raised err, t)
      else (.refused, s) := by
  simp only [busWriteMany, h] <;> rfl

end Sys2Proof.Machine
end

