-- ==== Sys2Proof/Laws/HostActions.lean ====
section
/-! SUPPORT. The host: everything an action and a step under the host can do, what a poke leaves alone, and that a legal load is a legal configuration. -/

namespace Sys2Proof.Machine

open Sys2Proof

/-- Everything an action of the host can do (R216). -/
theorem hostAct_cases {k m : Session} {a : HostAction} (h : hostAct k a = some m) :
    (∃ x, a = .load x ∧ k.phase = .held ∧ x.legal = true ∧ m = { k with machine := hostLoad k.machine x }) ∨
    (a = .reset ∧ m = ⟨.released, hostReset k.machine⟩) ∨
    (a = .observe ∧ m = k) ∨
    (a = .stop ∧ k.betweenSteps = true ∧ m = { k with phase := .stopped }) ∨
    (∃ v, a = .setBootEn v ∧ k.betweenSteps = true ∧ m = { k with machine := hostSetBootEn k.machine v }) ∨
    (∃ p t, a = .poke p ∧ k.beforeFirstStep = true ∧ hostPoke k.machine p = some t ∧ m = { k with machine := t }) := by
  cases a with
  | load x =>
    simp only [hostAct, Option.ite_none_right_eq_some, Option.some.injEq] at h
    exact .inl ⟨x, rfl, h.1.1, h.1.2, h.2.symm⟩
  | reset => cases h; exact .inr (.inl ⟨rfl, rfl⟩)
  | observe => cases h; exact .inr (.inr (.inl ⟨rfl, rfl⟩))
  | stop =>
    simp only [hostAct, Option.ite_none_right_eq_some, Option.some.injEq] at h
    exact .inr (.inr (.inr (.inl ⟨rfl, h.1, h.2.symm⟩)))
  | setBootEn v =>
    simp only [hostAct, Option.ite_none_right_eq_some, Option.some.injEq] at h
    exact .inr (.inr (.inr (.inr (.inl ⟨v, rfl, h.1, h.2.symm⟩))))
  | poke p =>
    simp only [hostAct, Option.ite_none_right_eq_some, Option.map_eq_some_iff] at h
    obtain ⟨h1, t, h2, h3⟩ := h
    exact .inr (.inr (.inr (.inr (.inr ⟨p, t, rfl, h1, h2, h3.symm⟩))))

/-- Everything a step under the host can do (R101, R217). -/
theorem sessionStep_cases {k m : Session} (h : sessionStep k = some m) :
    (k.phase = .released ∨ k.phase = .active) ∧ ∃ t, step k.machine = .next t ∧ m = ⟨.active, t⟩ := by
  simp only [sessionStep, Option.ite_none_right_eq_some] at h
  obtain ⟨h1, h2⟩ := h
  split at h2
  · cases h2; exact ⟨h1, _, ‹_›, rfl⟩
  · cases h2
  · cases h2

/-- What a poke leaves alone, and what it does to the two memories. -/
theorem hostPoke_frame {s t : State} {p : Poke} (h : hostPoke s p = some t) :
    t.bootEn = s.bootEn ∧ t.params = s.params ∧ t.run = s.run ∧ t.fault = s.fault ∧ t.cycles = s.cycles ∧
    t.periph = s.periph ∧ (t.vram = s.vram ∨ ∃ off v, off < 0x2000 ∧ t.vram = s.vram.write off v) ∧
    (t.io = s.io ∨ ∃ off v, off < 0x80 ∧ t.io = s.io.write off v) := by
  cases p with
  | reg r v => cases h; simp
  | pc v => cases h; simp
  | sp v => cases h; simp
  | byte addr v =>
    rcases select_cases s.bootEn addr with ⟨_, _, e⟩ | ⟨_, _, e⟩ | ⟨h1, h2, e⟩ | ⟨h1, h2, e⟩ | ⟨_, _, _, e⟩ <;>
      simp only [hostPoke, e] at h <;> cases h
    · exact ⟨rfl, rfl, rfl, rfl, rfl, rfl, .inr ⟨_, v, by omega, rfl⟩, .inl rfl⟩
    · exact ⟨rfl, rfl, rfl, rfl, rfl, rfl, .inl rfl, .inr ⟨_, v, by omega, rfl⟩⟩

/-- A legal load sets a legal configuration (R5, R67). -/
theorem HostLoad.params_wf {x : HostLoad} (h : x.legal = true) : Params.wf x.params := by
  simp only [HostLoad.legal, Bool.and_eq_true, List.contains_iff_mem] at h
  exact ⟨⟨imageOf_wf x.boot, imageOf_within x.boot⟩, ⟨imageOf_wf x.cart, imageOf_within x.cart⟩, h.1, h.2⟩

end Sys2Proof.Machine
end

