-- ==== Sys2Proof/Laws/PerInstr.lean ====
section
/-! SUPPORT. A statement per instruction, about the instruction as syntax: its encoding has the length of its table entry, one to three bytes, and begins with the opcode that resolves to that entry (30_encoding.md rules R80, R85, R90). -/

namespace Sys2Proof.Laws.EncodedLength

open Sys2Proof

/-- Every format is one to three bytes long (R80, R81). -/
theorem length_bounds (i : Instr) : 1 ≤ i.length ∧ i.length ≤ 3 := by
  unfold Instr.length
  cases i.op.format <;> decide

/-- The encoding has the entry's length, between one and three bytes, and its first byte resolves to the entry. -/
def Statement (i : Instr) : Prop :=
  (encode i).length = i.length ∧ 1 ≤ i.length ∧ i.length ≤ 3 ∧ (encode i).head?.bind primaryEntry = some i.op

theorem ldBcD16 (v : Word) : Statement (.ldBcD16 v) := ⟨rfl, (length_bounds _).1, (length_bounds _).2, rfl⟩
theorem ldDeD16 (v : Word) : Statement (.ldDeD16 v) := ⟨rfl, (length_bounds _).1, (length_bounds _).2, rfl⟩
theorem ldHlD16 (v : Word) : Statement (.ldHlD16 v) := ⟨rfl, (length_bounds _).1, (length_bounds _).2, rfl⟩
theorem ldSpD16 (v : Word) : Statement (.ldSpD16 v) := ⟨rfl, (length_bounds _).1, (length_bounds _).2, rfl⟩
theorem ldIndBcA : Statement .ldIndBcA := ⟨rfl, (length_bounds _).1, (length_bounds _).2, rfl⟩
theorem ldIndDeA : Statement .ldIndDeA := ⟨rfl, (length_bounds _).1, (length_bounds _).2, rfl⟩
theorem ldIndHlDecA : Statement .ldIndHlDecA := ⟨rfl, (length_bounds _).1, (length_bounds _).2, rfl⟩
theorem ldBD8 (v : Byte) : Statement (.ldBD8 v) := ⟨rfl, (length_bounds _).1, (length_bounds _).2, rfl⟩
theorem ldCD8 (v : Byte) : Statement (.ldCD8 v) := ⟨rfl, (length_bounds _).1, (length_bounds _).2, rfl⟩
theorem ldDD8 (v : Byte) : Statement (.ldDD8 v) := ⟨rfl, (length_bounds _).1, (length_bounds _).2, rfl⟩
theorem ldED8 (v : Byte) : Statement (.ldED8 v) := ⟨rfl, (length_bounds _).1, (length_bounds _).2, rfl⟩
theorem ldHD8 (v : Byte) : Statement (.ldHD8 v) := ⟨rfl, (length_bounds _).1, (length_bounds _).2, rfl⟩
theorem ldLD8 (v : Byte) : Statement (.ldLD8 v) := ⟨rfl, (length_bounds _).1, (length_bounds _).2, rfl⟩
theorem ldAD8 (v : Byte) : Statement (.ldAD8 v) := ⟨rfl, (length_bounds _).1, (length_bounds _).2, rfl⟩
theorem incB : Statement .incB := ⟨rfl, (length_bounds _).1, (length_bounds _).2, rfl⟩
theorem incC : Statement .incC := ⟨rfl, (length_bounds _).1, (length_bounds _).2, rfl⟩
theorem incD : Statement .incD := ⟨rfl, (length_bounds _).1, (length_bounds _).2, rfl⟩
theorem incE : Statement .incE := ⟨rfl, (length_bounds _).1, (length_bounds _).2, rfl⟩
theorem incH : Statement .incH := ⟨rfl, (length_bounds _).1, (length_bounds _).2, rfl⟩
theorem incL : Statement .incL := ⟨rfl, (length_bounds _).1, (length_bounds _).2, rfl⟩
theorem incA : Statement .incA := ⟨rfl, (length_bounds _).1, (length_bounds _).2, rfl⟩
theorem xorA : Statement .xorA := ⟨rfl, (length_bounds _).1, (length_bounds _).2, rfl⟩
theorem jrNzE8 (e : Byte) : Statement (.jrNzE8 e) := ⟨rfl, (length_bounds _).1, (length_bounds _).2, rfl⟩
theorem prefixCb (op2 : Byte) : Statement (.prefixCb op2) := ⟨rfl, (length_bounds _).1, (length_bounds _).2, rfl⟩
theorem ldhA8A (n : Byte) : Statement (.ldhA8A n) := ⟨rfl, (length_bounds _).1, (length_bounds _).2, rfl⟩
theorem ldIndCA : Statement .ldIndCA := ⟨rfl, (length_bounds _).1, (length_bounds _).2, rfl⟩
theorem bit7H : Statement .bit7H := ⟨rfl, (length_bounds _).1, (length_bounds _).2, rfl⟩

end Sys2Proof.Laws.EncodedLength
end

