-- ==== Sys2Proof/Tests/Slice0.lean ====
section
/-! SUPPORT. Tests: well-formedness, decoding of words written out from 30_encoding.md, one step of each instruction with the end values of 95_test_vectors.md, the bus at its boundaries, and a witness for the hypotheses of every obligation that has some. -/

namespace Sys2Proof.Tests

open Sys2Proof Sys2Proof.Machine

/-! Helpers. -/

/-- The step answers a next state that passes the check. -/
def stepsTo (s : State) (check : State → Bool) : Bool :=
  match step s with
  | .next t => check t
  | _ => false

/-- `exec` answers a next state that passes the check. -/
def execsTo (i : Instr) (s : State) (check : State → Bool) : Bool :=
  match exec i s with
  | .next t => check t
  | _ => false

theorem stepsTo_next {s : State} {check : State → Bool} (h : stepsTo s check = true) :
    ∃ t, step s = .next t ∧ check t = true := by
  unfold stepsTo at h
  split at h
  · exact ⟨_, ‹_›, h⟩
  · cases h

theorem execsTo_next {i : Instr} {s : State} {check : State → Bool} (h : execsTo i s check = true) :
    ∃ t, exec i s = .next t ∧ check t = true := by
  unfold execsTo at h
  split at h
  · exact ⟨_, ‹_›, h⟩
  · cases h

/-- The reset state with PC at `pc` and bytes placed there: a harness start (R216). -/
def withCode (pc : Word) (bytes : List Byte) : State := placeBytes { State.reset with pc := pc } pc bytes

/-- The same under `nibble_carry` and `n0_h1`. -/
def otherRules (s : State) : State := { s with params := { s.params with incHRule := .nibbleCarry, bitNhRule := .n0h1 } }

/-- The same with the recognised I/O addresses given. -/
def recognising (s : State) (addrs : List Word) : State := { s with params := { s.params with ioRecognised := addrs } }

/-- The same with the boot image cut to `n` bytes. -/
def bootLen (s : State) (n : Nat) : State :=
  { s with params := { s.params with bootImage := { s.params.bootImage with len := n } } }

/-- FAULTED with this record, PC and `cycles` as at the start. -/
def faultedAt (s : State) (err : FatalError) (t : State) : Bool :=
  t.run == .faulted && t.fault == some ⟨err, s.pc⟩ && t.pc == s.pc && t.cycles == s.cycles

/-- RUNNING with this PC and this many cycles. -/
def at_ (pc : Word) (cycles : Nat) (t : State) : Bool := t.run == .running && t.pc == pc && t.cycles == cycles

/-! Well-formedness: its one check, and a term it accepts. -/

theorem test_wf_escape_of_bit7H_refused : (Instr.prefixCb 0x7C#8).wf = false := by decide
theorem test_wf_escape_of_other_accepted : (Instr.prefixCb 0x7D#8).wf = true := by decide

/-! Decoding: one word per constructor, from R85, R86 and R81. -/

theorem test_decode_LD_BC_d16 : decode [0x01#8, 0x34#8, 0x12#8] = .ok (.ldBcD16 0x1234#16, []) := rfl
theorem test_decode_LD_DE_d16 : decode [0x11#8, 0x01#8, 0x80#8] = .ok (.ldDeD16 0x8001#16, []) := rfl
theorem test_decode_LD_HL_d16 : decode [0x21#8, 0xFF#8, 0x9F#8] = .ok (.ldHlD16 0x9FFF#16, []) := rfl
theorem test_decode_LD_SP_d16 : decode [0x31#8, 0xFE#8, 0xFF#8] = .ok (.ldSpD16 0xFFFE#16, []) := rfl
theorem test_decode_LD_BC_A : decode [0x02#8, 0x34#8] = .ok (.ldIndBcA, [0x34#8]) := rfl
theorem test_decode_LD_DE_A : decode [0x12#8] = .ok (.ldIndDeA, []) := rfl
theorem test_decode_LD_HLdec_A : decode [0x32#8] = .ok (.ldIndHlDecA, []) := rfl
theorem test_decode_LD_B_d8 : decode [0x06#8, 0xFD#8] = .ok (.ldBD8 0xFD#8, []) := rfl
theorem test_decode_LD_C_d8 : decode [0x0E#8, 0x11#8] = .ok (.ldCD8 0x11#8, []) := rfl
theorem test_decode_LD_D_d8 : decode [0x16#8, 0x22#8] = .ok (.ldDD8 0x22#8, []) := rfl
theorem test_decode_LD_E_d8 : decode [0x1E#8, 0x00#8] = .ok (.ldED8 0x00#8, []) := rfl
theorem test_decode_LD_H_d8 : decode [0x26#8, 0x80#8] = .ok (.ldHD8 0x80#8, []) := rfl
theorem test_decode_LD_L_d8 : decode [0x2E#8, 0x10#8] = .ok (.ldLD8 0x10#8, []) := rfl
theorem test_decode_LD_A_d8 : decode [0x3E#8, 0xFF#8] = .ok (.ldAD8 0xFF#8, []) := rfl
theorem test_decode_INC_B : decode [0x04#8] = .ok (.incB, []) := rfl
theorem test_decode_INC_C : decode [0x0C#8] = .ok (.incC, []) := rfl
theorem test_decode_INC_D : decode [0x14#8] = .ok (.incD, []) := rfl
theorem test_decode_INC_E : decode [0x1C#8] = .ok (.incE, []) := rfl
theorem test_decode_INC_H : decode [0x24#8] = .ok (.incH, []) := rfl
theorem test_decode_INC_L : decode [0x2C#8] = .ok (.incL, []) := rfl
theorem test_decode_INC_A : decode [0x3C#8] = .ok (.incA, []) := rfl
theorem test_decode_XOR_A : decode [0xAF#8] = .ok (.xorA, []) := rfl
theorem test_decode_JR_NZ_e8 : decode [0x20#8, 0xFB#8] = .ok (.jrNzE8 0xFB#8, []) := rfl
theorem test_decode_PREFIX_CB : decode [0xCB#8, 0x00#8] = .ok (.prefixCb 0x00#8, []) := rfl
theorem test_decode_LDH_a8_A : decode [0xE0#8, 0x25#8] = .ok (.ldhA8A 0x25#8, []) := rfl
theorem test_decode_LD_Cind_A : decode [0xE2#8] = .ok (.ldIndCA, []) := rfl
theorem test_decode_BIT_7_H : decode [0xCB#8, 0x7C#8] = .ok (.bit7H, []) := rfl
/-- R88: 0x36 and 0x34 are no register forms; 0x00 is no no-op. -/
theorem test_decode_unregistered :
    [0x00#8, 0x36#8, 0x34#8, 0xFF#8].all (fun op => decode [op, 0#8, 0#8] == .error (.unknownPrimary op)) = true := by decide
theorem test_decode_truncated : decode [0x01#8, 0x34#8] = .error .truncated := rfl
/-- R95: the table's numbering, low byte first in the one-byte rows, 0xCB7C for BIT 7,H. -/
theorem test_table_words :
    decodeTableWord 8 0x01 = some (.ldBcD16 0#16) ∧ decodeTableWord 8 0xCB = some (.prefixCb 0#8) ∧
    decodeTableWord 16 0xCB7C = some .bit7H ∧ decodeTableWord 8 0x00 = none := by decide

/-! One step of each instruction, with the end values of 95_test_vectors.md part 2 (the vector's id in each name). -/

/-- LD16-1. -/
theorem test_LD16_1 : stepsTo { withCode 0x0100#16 [0x01#8, 0x34#8, 0x12#8] with b := 0xAA#8, c := 0xBB#8, f := 0xF0#8 }
    (fun t => t.b == 0x12#8 && t.c == 0x34#8 && t.f == 0xF0#8 && at_ 0x0103#16 12 t) = true := by decide
/-- LD16-2. -/
theorem test_LD16_2 : stepsTo { withCode 0x0010#16 [0x11#8, 0xFF#8, 0xFF#8] with f := 0x0F#8 }
    (fun t => t.d == 0xFF#8 && t.e == 0xFF#8 && t.f == 0x0F#8 && at_ 0x0013#16 12 t) = true := by decide
/-- LD16-3. -/
theorem test_LD16_3 : stepsTo { withCode 0x0010#16 [0x21#8, 0x00#8, 0x00#8] with h := 0x12#8, l := 0x34#8 }
    (fun t => t.h == 0#8 && t.l == 0#8 && t.f == 0#8 && at_ 0x0013#16 12 t) = true := by decide
/-- LD16-3b. -/
theorem test_LD16_3b : stepsTo (withCode 0x0010#16 [0x31#8, 0xFE#8, 0xFF#8])
    (fun t => t.sp == 0xFFFE#16 && at_ 0x0013#16 12 t) = true := by decide
/-- LD16-4: the immediate straddles the boot image and the cartridge. -/
theorem test_LD16_4 : stepsTo (withCode 0x00FE#16 [0x01#8, 0x34#8, 0x12#8])
    (fun t => t.b == 0x12#8 && t.c == 0x34#8 && at_ 0x0101#16 12 t) = true := by decide
/-- LD16-5. -/
theorem test_LD16_5 : stepsTo (withCode 0x3FFE#16 [0x01#8, 0x34#8])
    (faultedAt (withCode 0x3FFE#16 []) (.addressing 0x4000#16 .read)) = true := by decide
/-- LD16-6: beyond a boot image of 3 bytes there is no fall-through to the cartridge. -/
theorem test_LD16_6 : stepsTo (bootLen (withCode 0x0001#16 [0x21#8, 0x55#8]) 3)
    (faultedAt (withCode 0x0001#16 []) (.addressing 0x0003#16 .read)) = true := by decide

/-- LD8-1 and its other forms. -/
theorem test_LD8_1_B : stepsTo { withCode 0x0100#16 [0x06#8, 0xFD#8] with f := 0xA0#8 }
    (fun t => t.b == 0xFD#8 && t.f == 0xA0#8 && at_ 0x0102#16 8 t) = true := by decide
theorem test_LD8_1_D : stepsTo (withCode 0x0100#16 [0x16#8, 0x5A#8])
    (fun t => t.d == 0x5A#8 && at_ 0x0102#16 8 t) = true := by decide
theorem test_LD8_1_L : stepsTo (withCode 0x0100#16 [0x2E#8, 0x5A#8])
    (fun t => t.l == 0x5A#8 && at_ 0x0102#16 8 t) = true := by decide
/-- LD8-2. -/
theorem test_LD8_2 : stepsTo { withCode 0x0100#16 [0x1E#8, 0x00#8] with e := 0x77#8 }
    (fun t => t.e == 0#8 && t.f == 0#8 && at_ 0x0102#16 8 t) = true := by decide
/-- LD8-3. -/
theorem test_LD8_3 : stepsTo { withCode 0x0100#16 [0x26#8, 0x80#8] with l := 0x10#8 }
    (fun t => t.pair .hl == 0x8010#16 && at_ 0x0102#16 8 t) = true := by decide
/-- LD8-4. -/
theorem test_LD8_4 : stepsTo (withCode 0x0100#16 [0x3E#8, 0xFF#8])
    (fun t => t.a == 0xFF#8 && at_ 0x0102#16 8 t) = true := by decide
/-- LD8-5. -/
theorem test_LD8_5 : stepsTo { withCode 0x3FFF#16 [0x3E#8] with a := 0x11#8 }
    (fun t => t.a == 0x11#8 && faultedAt (withCode 0x3FFF#16 []) (.addressing 0x4000#16 .read) t) = true := by decide
/-- LD8-6: code fetched from the I/O block. -/
theorem test_LD8_6 : stepsTo (withCode 0xFF7E#16 [0x0E#8, 0x99#8])
    (fun t => t.c == 0x99#8 && at_ 0xFF80#16 8 t) = true := by decide

/-- ST-1. -/
theorem test_ST_1 : stepsTo { withCode 0x0100#16 [0x02#8] with a := 0x5A#8, b := 0x81#8 }
    (fun t => t.vram == [(0x0100, 0x5A#8)] && at_ 0x0101#16 8 t) = true := by decide
/-- ST-2. -/
theorem test_ST_2 : stepsTo { withCode 0x0100#16 [0x02#8] with a := 0x5A#8, b := 0x01#8 }
    (faultedAt (withCode 0x0100#16 []) (.writeProtected 0x0100#16)) = true := by decide
/-- ST-3. -/
theorem test_ST_3 : stepsTo { withCode 0x0100#16 [0x12#8] with a := 0x01#8, d := 0x9F#8, e := 0xFF#8 }
    (fun t => t.vram == [(0x1FFF, 0x01#8)] && at_ 0x0101#16 8 t) = true := by decide
/-- ST-4. -/
theorem test_ST_4 : stepsTo { withCode 0x0100#16 [0x12#8] with a := 0x01#8, d := 0xA0#8 }
    (faultedAt (withCode 0x0100#16 []) (.addressing 0xA000#16 .write)) = true := by decide
/-- ST-5. -/
theorem test_ST_5 : stepsTo { withCode 0x0100#16 [0x32#8] with a := 0x77#8, h := 0x80#8 }
    (fun t => t.vram == [(0, 0x77#8)] && t.h == 0x7F#8 && t.l == 0xFF#8 && at_ 0x0101#16 8 t) = true := by decide
/-- ST-7: a raise leaves HL. -/
theorem test_ST_7 : stepsTo { withCode 0x0100#16 [0x32#8] with a := 0x77#8 }
    (fun t => t.pair .hl == 0#16 && faultedAt (withCode 0x0100#16 []) (.writeProtected 0#16) t) = true := by decide
/-- ST-10. -/
theorem test_ST_10 : stepsTo { withCode 0x0100#16 [0x32#8] with a := 0x80#8, h := 0xFF#8, l := 0x26#8 }
    (fun t => t.l == 0x26#8 && t.io == [] && faultedAt (withCode 0x0100#16 []) (.unknownRegister 0xFF26#16 0x80#8) t) =
      true := by decide
/-- ST-11. -/
theorem test_ST_11 : stepsTo { withCode 0x0100#16 [0xE0#8, 0x25#8] with a := 0x11#8 }
    (fun t => t.io == [(0x25, 0x11#8)] && at_ 0x0102#16 12 t) = true := by decide
/-- ST-11: one hook call, with the absolute address and the byte. -/
theorem test_ST_11_hook : ∃ t, step { withCode 0x0100#16 [0xE0#8, 0x25#8] with a := 0x11#8 } = .next t ∧
    t.periph = Config.ioHook 0xFF25#16 0x11#8 0 := ⟨_, rfl, rfl⟩
/-- ST-13. -/
theorem test_ST_13 : stepsTo { withCode 0x0100#16 [0xE0#8, 0x80#8] with a := 0x11#8 }
    (faultedAt (withCode 0x0100#16 []) (.addressing 0xFF80#16 .write)) = true := by decide
/-- ST-15. -/
theorem test_ST_15 : stepsTo (recognising { withCode 0x0100#16 [0xE2#8] with a := 0x80#8, b := 0x55#8, c := 0x11#8 }
    [0xFF11#16]) (fun t => t.io == [(0x11, 0x80#8)] && at_ 0x0101#16 8 t) = true := by decide
/-- ST-17. -/
theorem test_ST_17 : stepsTo (recognising { withCode 0x0100#16 [0xE2#8] with a := 0x80#8 } [])
    (faultedAt (withCode 0x0100#16 []) (.unknownRegister 0xFF00#16 0x80#8)) = true := by decide

/-- INC-1. -/
theorem test_INC_1 : stepsTo { withCode 0x0100#16 [0x04#8] with b := 0xFF#8, f := 0x10#8 }
    (fun t => t.b == 0#8 && t.f == 0xB0#8 && at_ 0x0101#16 4 t) = true := by decide
/-- INC-2. -/
theorem test_INC_2 : stepsTo { withCode 0x0100#16 [0x0C#8] with c := 0x11#8, f := 0x80#8 }
    (fun t => t.c == 0x12#8 && t.f == 0#8 && at_ 0x0101#16 4 t) = true := by decide
/-- INC-3. -/
theorem test_INC_3 : stepsTo { withCode 0x0100#16 [0x14#8] with d := 0x0F#8 }
    (fun t => t.d == 0x10#8 && t.f == 0#8) = true := by decide
/-- INC-3 under `nibble_carry`. -/
theorem test_INC_3_nc : stepsTo (otherRules { withCode 0x0100#16 [0x14#8] with d := 0x0F#8 })
    (fun t => t.d == 0x10#8 && t.f == 0x20#8) = true := by decide
/-- INC-4. -/
theorem test_INC_4 : stepsTo { withCode 0x0100#16 [0x1C#8] with f := 0xF0#8 }
    (fun t => t.e == 0x01#8 && t.f == 0x10#8) = true := by decide
/-- INC-5 under `nibble_carry`. -/
theorem test_INC_5_nc : stepsTo (otherRules { withCode 0x0100#16 [0x24#8] with h := 0x7F#8, l := 0xFF#8 })
    (fun t => t.h == 0x80#8 && t.l == 0xFF#8 && t.f == 0x20#8) = true := by decide
/-- INC-6. -/
theorem test_INC_6 : stepsTo { withCode 0x0100#16 [0x2C#8] with h := 0x80#8, l := 0xFF#8 }
    (fun t => t.l == 0#8 && t.h == 0x80#8 && t.f == 0xA0#8) = true := by decide
/-- INC-8. -/
theorem test_INC_8 : stepsTo { withCode 0x0100#16 [0x3C#8] with a := 0xEF#8, f := 0x1F#8 }
    (fun t => t.a == 0xF0#8 && t.f == 0x1F#8) = true := by decide
/-- INC-8 under `nibble_carry`. -/
theorem test_INC_8_nc : stepsTo (otherRules { withCode 0x0100#16 [0x3C#8] with a := 0xEF#8, f := 0x1F#8 })
    (fun t => t.a == 0xF0#8 && t.f == 0x3F#8) = true := by decide

/-- XOR-1. -/
theorem test_XOR_1 : stepsTo { withCode 0x0003#16 [0xAF#8] with a := 0x5A#8, f := 0x70#8 }
    (fun t => t.a == 0#8 && t.f == 0x80#8 && at_ 0x0004#16 4 t) = true := by decide
/-- XOR-3. -/
theorem test_XOR_3 : stepsTo { withCode 0x0003#16 [0xAF#8] with a := 0xFF#8, f := 0xFF#8 }
    (fun t => t.a == 0#8 && t.f == 0x8F#8 && at_ 0x0004#16 4 t) = true := by decide

/-- JR-2. -/
theorem test_JR_2 : stepsTo { withCode 0x0100#16 [0x20#8, 0x05#8] with f := 0x80#8 } (at_ 0x0102#16 8) = true := by decide
/-- JR-7 and JR-8: the ends of the displacement's range. -/
theorem test_JR_7_8 : stepsTo (withCode 0x0100#16 [0x20#8, 0x7F#8]) (at_ 0x0181#16 12) = true ∧
    stepsTo (withCode 0x0100#16 [0x20#8, 0x80#8]) (at_ 0x0082#16 12) = true := by decide
/-- JR-9, step 1: the target wraps. -/
theorem test_JR_9 : stepsTo (withCode 0x0000#16 [0x20#8, 0x80#8]) (at_ 0xFF82#16 12) = true := by decide
/-- JR-10: the offset is fetched even when the jump is not taken. -/
theorem test_JR_10 : stepsTo { withCode 0x3FFF#16 [0x20#8] with f := 0x80#8 }
    (faultedAt (withCode 0x3FFF#16 []) (.addressing 0x4000#16 .read)) = true := by decide
/-- JR-11: only bit 7 is tested. -/
theorem test_JR_11 : stepsTo { withCode 0x0100#16 [0x20#8, 0x05#8] with f := 0x7F#8 }
    (fun t => t.f == 0x7F#8 && at_ 0x0107#16 12 t) = true := by decide

/-- BIT-3 and its `n0_h1` column. -/
theorem test_BIT_3 : stepsTo { withCode 0x0008#16 [0xCB#8, 0x7C#8] with h := 0x80#8, l := 0xFF#8, f := 0xF0#8 }
    (fun t => t.f == 0x70#8 && t.h == 0x80#8 && at_ 0x000A#16 8 t) = true := by decide
theorem test_BIT_3_n0h1 : stepsTo (otherRules { withCode 0x0008#16 [0xCB#8, 0x7C#8] with h := 0x80#8, f := 0xF0#8 })
    (fun t => t.f == 0x30#8) = true := by decide
/-- BIT-6. -/
theorem test_BIT_6 : stepsTo (withCode 0x0008#16 [0xCB#8, 0xCB#8])
    (faultedAt (withCode 0x0008#16 []) (.unknownOpcode .secondary 0xCB#8)) = true := by decide
/-- BIT-7: the escape in the boot image, its operand in the cartridge. -/
theorem test_BIT_7 : stepsTo { withCode 0x00FF#16 [0xCB#8, 0x7C#8] with h := 0x80#8, f := 0x80#8 }
    (fun t => t.f == 0#8 && at_ 0x0101#16 8 t) = true := by decide
/-- BIT-8. -/
theorem test_BIT_8 : stepsTo (withCode 0x3FFF#16 [0xCB#8])
    (faultedAt (withCode 0x3FFF#16 []) (.addressing 0x4000#16 .read)) = true := by decide

/-- UNK-1. -/
theorem test_UNK_1 : stepsTo { withCode 0x0100#16 [0xFF#8] with a := 0x01#8, f := 0x50#8 }
    (fun t => t.a == 0x01#8 && t.f == 0x50#8 && faultedAt (withCode 0x0100#16 []) (.unknownOpcode .primary 0xFF#8) t) =
      true := by decide
/-- UNK-3: the byte after it is never fetched. -/
theorem test_UNK_3 : stepsTo (withCode 0x3FFF#16 [0x36#8])
    (faultedAt (withCode 0x3FFF#16 []) (.unknownOpcode .primary 0x36#8)) = true := by decide
/-- FETCH-1 and FETCH-2. -/
theorem test_FETCH_1 : stepsTo (withCode 0x4000#16 [])
    (faultedAt (withCode 0x4000#16 []) (.addressing 0x4000#16 .read)) = true := by decide
theorem test_FETCH_2 : stepsTo (bootLen (withCode 0x0003#16 []) 3)
    (faultedAt (withCode 0x0003#16 []) (.addressing 0x0003#16 .read)) = true := by decide
/-- R101: in FAULTED there is no step. -/
theorem test_faulted_halts : step (raise State.reset (.writeProtected 0#16)) = .fault .halted := rfl

/-- ST-18, step 2 from the state after step 1: the byte just stored is fetched. -/
theorem test_ST_18 : stepsTo { withCode 0x8000#16 [0x02#8] with a := 0xAF#8, b := 0x80#8, c := 0x01#8 }
    (fun t => t.vram == [(0, 0x02#8), (1, 0xAF#8)] &&
      stepsTo t (fun u => u.a == 0#8 && u.f == 0x80#8 && at_ 0x8002#16 12 u)) = true := by decide

/-- R226: the cost is the configured one. -/
theorem test_cycles_configured :
    stepsTo { withCode 0x0003#16 [0xAF#8] with
      params := { (withCode 0x0003#16 [0xAF#8]).params with costs := { defaultCosts with xorA := 1 } } }
      (at_ 0x0004#16 1) = true := by decide
/-- R226, every row of the default table. -/
theorem test_default_costs : [defaultCosts.ldBc, defaultCosts.ldPair, defaultCosts.ldReg, defaultCosts.storePair,
    defaultCosts.ldh, defaultCosts.storeC, defaultCosts.inc, defaultCosts.xorA, defaultCosts.jrTaken,
    defaultCosts.jrNotTaken, defaultCosts.bit] = [12, 12, 8, 8, 12, 8, 4, 4, 12, 8, 8] := by decide

/-! Registers, flags, pairs: T1, T2, T3 and R14's truncation. -/

theorem test_T1 : (State.reset.writeReg .b 0x1234).b = 0x34#8 ∧ (State.reset.writeReg .b 0x0100).b = 0#8 := by decide
theorem test_T2 : (State.reset.writePair .af 0xABCD).a = 0xAB#8 ∧ (State.reset.writePair .af 0xABCD).f = 0xCD#8 := by decide
theorem test_T3 : setFlag 0x7F#8 .z true = 0xFF#8 ∧ setFlag 0xFF#8 .z false = 0x7F#8 ∧ setFlag 0x05#8 .h true = 0x25#8 ∧
    setFlag 0xF0#8 .c false = 0xE0#8 := by decide

/-! The bus at its boundaries. -/

/-- BUS-1 and BUS-2 (T4): the overlay covers 0x00FF and not 0x0100. -/
def busState : State := { State.reset with
  params := { State.reset.params with bootImage := ⟨256, [(0xFF, 0x11#8)]⟩,
                                      cartImage := ⟨0x4000, [(0xFF, 0x22#8), (0x100, 0x33#8), (0x3FFF, 0x44#8)]⟩ } }
theorem test_BUS_1 : memRead busState 0x00FF#16 = .ok 0x11#8 ∧ memRead busState 0x0100#16 = .ok 0x33#8 := by decide
theorem test_BUS_2 : memRead (hostSetBootEn busState false) 0x00FF#16 = .ok 0x22#8 := by decide
theorem test_BUS_3 : memRead busState 0x3FFF#16 = .ok 0x44#8 ∧
    memRead busState 0x4000#16 = .error (.addressing 0x4000#16 .read) ∧
    memRead busState 0x7FFF#16 = .error (.addressing 0x7FFF#16 .read) := by decide
theorem test_read_edges : memRead busState 0x8000#16 = .ok 0#8 ∧ memRead busState 0x9FFF#16 = .ok 0#8 ∧
    memRead busState 0xA000#16 = .error (.addressing 0xA000#16 .read) ∧
    memRead busState 0xFEFF#16 = .error (.addressing 0xFEFF#16 .read) ∧ memRead busState 0xFF00#16 = .ok 0#8 ∧
    memRead busState 0xFF7F#16 = .ok 0#8 ∧ memRead busState 0xFF80#16 = .error (.addressing 0xFF80#16 .read) := by decide
theorem test_select_edges : select true 0x00FF#16 = some (.boot, 0xFF) ∧ select true 0x0100#16 = some (.cart, 0x100) ∧
    select false 0x0000#16 = some (.cart, 0) ∧ select true 0x3FFF#16 = some (.cart, 0x3FFF) ∧
    select true 0x4000#16 = none ∧ select true 0x7FFF#16 = none ∧ select true 0x8000#16 = some (.vram, 0) ∧
    select true 0x9FFF#16 = some (.vram, 0x1FFF) ∧ select true 0xA000#16 = none ∧ select true 0xFEFF#16 = none ∧
    select true 0xFF00#16 = some (.io, 0) ∧ select true 0xFF7F#16 = some (.io, 0x7F) ∧ select true 0xFF80#16 = none ∧
    select true 0xFFFF#16 = none := by decide
/-- The write succeeds and the byte then reads back as the one written. -/
def readsBack (s : State) (addr : Word) (v : Byte) : Bool :=
  match memWrite s addr v with
  | .ok t => memRead t addr == .ok v
  | .error _ => false
/-- BUS-4 and the legal half of BUS-5. -/
theorem test_BUS_4_5 : readsBack busState 0x8000#16 0xAB#8 = true ∧ readsBack busState 0x9FFF#16 0xCD#8 = true ∧
    readsBack busState 0xFF25#16 0x11#8 = true := by decide
/-- BUS-5, the unrecognised address. -/
theorem test_BUS_5 : memWrite busState 0xFF24#16 0x01#8 = .error (.unknownRegister 0xFF24#16 0x01#8) := rfl
/-- BUS-6, BUS-8 and the other illegal edges. -/
theorem test_write_edges :
    [0x0000#16, 0x00FF#16, 0x3FFF#16].all (fun addr =>
      match memWrite busState addr 0x77#8 with | .error e => e == .writeProtected addr | .ok _ => false) = true ∧
    [0x4000#16, 0x7FFF#16, 0xA000#16, 0xFE00#16, 0xFEFF#16, 0xFF80#16, 0xFFFF#16].all (fun addr =>
      match memWrite busState addr 0x77#8 with | .error e => e == .addressing addr .write | .ok _ => false) = true := by
  decide
/-- R58: a read that overruns its region is refused; one that does not answers its bytes. -/
theorem test_multi_byte : busReadMany busState 0x00FF#16 2 = .refused ∧
    busReadMany busState 0x0100#16 2 = .done [0x33#8, 0x00#8] := by decide
/-- R58, R71: bytes in ascending order; the write that overruns video RAM is refused. -/
theorem test_multi_byte_write :
    (busWriteMany busState 0x9FFE#16 [0x01#8, 0x02#8]).2.vram = [(0x1FFE, 0x01#8), (0x1FFF, 0x02#8)] ∧
    (busWriteMany busState 0x9FFF#16 [0x01#8, 0x02#8]).1 = .refused := by decide
/-- R58, U1: an overrun is refused in every region, at the end of an image too; one byte is the bus transaction. -/
theorem test_multi_byte_overrun :
    (busWriteMany busState 0x3FFF#16 [0x01#8, 0x02#8]).1 = .refused ∧
    (busWriteMany busState 0x3FFE#16 [0x01#8, 0x02#8]).1 = .raised (.writeProtected 0x3FFE#16) ∧
    busReadMany (bootLen busState 3) 0x0002#16 2 = .refused ∧
    busReadMany (bootLen busState 3) 0x0001#16 2 = .done [0x00#8, 0x00#8] ∧
    busReadMany (bootLen busState 3) 0x0003#16 1 = .raised (.addressing 0x0003#16 .read) := by decide
/-- R58: the write stops at the unrecognised byte, the earlier one stays written. -/
theorem test_multi_byte_stops :
    (busWriteMany busState 0xFF25#16 [0x11#8, 0x22#8]).1 = .raised (.unknownRegister 0xFF26#16 0x22#8) ∧
    (busWriteMany busState 0xFF25#16 [0x11#8, 0x22#8]).2.io = [(0x25, 0x11#8)] := by decide
theorem test_memory_removes_unlisted : Memory.write [(1, 0x05#8)] 1 0x00#8 = [] := by decide

/-! The host (R216). -/

/-- A load with both images given and every other parameter at its default. -/
def loadOf (boot : List Byte) : HostLoad :=
  { boot := boot, cart := [], ioRecognised := [0xFF25#16], incHRule := .nibbleCarry, bitNhRule := .n0h1,
    costs := defaultCosts, periphReset := 7 }

/-- R213's order: load, reset, run. The load sets every open parameter, and the first step runs the loaded byte. -/
theorem test_host_load_reset_run :
    ((hostAct ⟨.held, State.reset⟩ (.load (loadOf [0xAF#8]))).bind fun k =>
      (hostAct k .reset).bind fun m => (sessionStep m).map fun n =>
        (n.phase, n.machine.f, n.machine.pc, n.machine.periph, n.machine.params.incHRule, n.machine.params.bitNhRule)) =
      some (.active, 0x80#8, 1#16, 7, .nibbleCarry, .n0h1) := by decide
/-- R216: no load once reset is released, no poke in the running loop, no `boot_en` change in FAULTED. -/
theorem test_host_not_allowed :
    hostAct ⟨.active, State.reset⟩ (.load (loadOf [])) = none ∧
    hostAct ⟨.active, State.reset⟩ (.poke (.reg .a 1#8)) = none ∧
    hostAct ⟨.active, raise State.reset (.writeProtected 0#16)⟩ (.setBootEn false) = none ∧
    sessionStep ⟨.stopped, State.reset⟩ = none := by decide

/-! Encoded lengths (R81). -/

theorem test_lengths : Instr.length (.ldBcD16 0#16) = 3 ∧ Instr.length .bit7H = 2 ∧ Instr.length .xorA = 1 := by decide

/-! Witnesses: for each obligation with hypotheses, values that meet all of them (each clause, at its boundaries). -/

theorem witness_RegisterWriteMasksToEightBits : Reg8.f ≠ Reg8.a := by decide
theorem witness_PairWriteSplitsAndReadsBack : Reg8.a ≠ Pair.high .bc ∧ Reg8.a ≠ Pair.low .bc := by decide
theorem witness_FlagSettersAreIndependent : 3 ≠ Flag.pos .z ∧ 6 ≠ Flag.pos .z := by decide
theorem witness_CommitFlagsWritesExactlyTheDirectives : 0 < 4 ∧ 3 < 4 := by decide
theorem witness_WriteLegalityByAddress :
    (0x3FFF#16).toNat < 0x4000 ∧
    (0x4000 ≤ (0x4000#16).toNat ∧ (0x7FFF#16).toNat < 0x8000) ∧
    (0x8000 ≤ (0x8000#16).toNat ∧ (0x9FFF#16).toNat < 0xA000) ∧
    (0xA000 ≤ (0xA000#16).toNat ∧ (0xFEFF#16).toNat < 0xFF00) ∧
    (0xFF00 ≤ (0xFF25#16).toNat ∧ (0xFF25#16).toNat < 0xFF80 ∧ 0xFF25#16 ∈ State.reset.params.ioRecognised) ∧
    (0xFF00 ≤ (0xFF00#16).toNat ∧ (0xFF00#16).toNat < 0xFF80 ∧ 0xFF00#16 ∉ State.reset.params.ioRecognised) ∧
    (0xFF00 ≤ (0xFF7F#16).toNat ∧ (0xFF7F#16).toNat < 0xFF80 ∧ 0xFF7F#16 ∉ State.reset.params.ioRecognised) ∧
    0xFF80 ≤ (0xFF80#16).toNat := by decide
theorem witness_ReadAfterWrite :
    (∃ t, memWrite State.reset 0x8000#16 0x5A#8 = .ok t) ∧ (∃ t, memWrite State.reset 0xFF25#16 0x11#8 = .ok t) ∧
    0x8001#16 ≠ 0x8000#16 := ⟨⟨_, rfl⟩, ⟨_, rfl⟩, by decide⟩
theorem witness_MultiByteReadIsBytewiseOrRefused :
    memRead busState 0x9FFF#16 = .ok 0x00#8 ∧ memRead busState 0xA000#16 = .error (.addressing 0xA000#16 .read) ∧
    ¬ mapped 0x4000#16 ∧ ¬ mapped 0x7FFF#16 ∧ ¬ mapped 0xA000#16 ∧ ¬ mapped 0xFEFF#16 ∧ ¬ mapped 0xFF80#16 := by decide
theorem witness_MultiByteRead_inRegion :
    (mapped 0x00FE#16 ∧ (0x00FE#16).toNat + 2 ≤ regionEnd busState 0x00FE#16) ∧
    (mapped 0x3FFE#16 ∧ (0x3FFE#16).toNat + 2 ≤ regionEnd busState 0x3FFE#16) ∧
    (mapped 0x9FFE#16 ∧ (0x9FFE#16).toNat + 2 ≤ regionEnd busState 0x9FFE#16) ∧
    (mapped 0xFF7E#16 ∧ (0xFF7E#16).toNat + 2 ≤ regionEnd busState 0xFF7E#16) ∧
    busReadMany busState 0x0100#16 2 = .done [0x33#8, 0x00#8] := by decide
theorem witness_MultiByteRead_overrun :
    (mapped 0x00FF#16 ∧ 2 ≤ 2 ∧ regionEnd busState 0x00FF#16 < (0x00FF#16).toNat + 2) ∧
    (mapped 0x3FFF#16 ∧ regionEnd busState 0x3FFF#16 < (0x3FFF#16).toNat + 2) ∧
    (mapped 0x0002#16 ∧ regionEnd (bootLen busState 3) 0x0002#16 < (0x0002#16).toNat + 2) := by decide
theorem witness_MultiByteRead_bytes : ∀ k (h : k < [0x33#8, 0x00#8].length),
    memRead busState (0x0100#16 + BitVec.ofNat 16 k) = .ok [0x33#8, 0x00#8][k] := by
  intro k h
  match k, h with
  | 0, _ => rfl
  | 1, _ => rfl
theorem witness_MultiByteWriteIsBytewiseOrRefused :
    (∃ t, memWrite busState 0x9FFE#16 0x01#8 = .ok t) ∧
    memWrite busState 0xFF24#16 0x01#8 = .error (.unknownRegister 0xFF24#16 0x01#8) ∧
    ¬ mapped 0xA000#16 ∧
    (mapped 0x9FFE#16 ∧ [0x02#8] ≠ [] ∧ (0x9FFE#16).toNat + ([0x02#8].length + 1) ≤ regionEnd busState 0x9FFE#16) ∧
    (mapped 0xFF24#16 ∧ (0xFF24#16).toNat + ([0x02#8].length + 1) ≤ regionEnd busState 0xFF24#16) ∧
    (mapped 0x3FFF#16 ∧ regionEnd busState 0x3FFF#16 < (0x3FFF#16).toNat + ([0x02#8].length + 1)) ∧
    (mapped 0xFF7F#16 ∧ regionEnd busState 0xFF7F#16 < (0xFF7F#16).toNat + ([0x02#8].length + 1)) :=
  ⟨⟨_, rfl⟩, rfl, by decide, by decide, by decide, by decide, by decide⟩
theorem witness_TablesRegisterExactlyTheListedOpcodes : 0x00#8 ∉ registeredOpcodes ∧ 0xFF#8 ∉ registeredOpcodes := by decide
theorem witness_DecodeOfEncode : Instr.wf .bit7H = true ∧ Instr.wf (.prefixCb 0xCB#8) = true := by decide
theorem witness_EncodeOfDecode : decode [0xCB#8, 0x7C#8, 0x20#8] = .ok (.bit7H, [0x20#8]) := rfl
theorem witness_StepRunsTheDecodedInstruction :
    (withCode 0x0100#16 [0x20#8, 0x05#8]).run = .running ∧ Instr.wf (.jrNzE8 0x05#8) = true ∧
    codeAt (withCode 0x0100#16 [0x20#8, 0x05#8]) 0x0100#16 (encode (.jrNzE8 0x05#8)) = true := by decide
theorem witness_step_completes : ∃ t, State.run (withCode 0#16 [0xAF#8]) = .running ∧
    step (withCode 0#16 [0xAF#8]) = .next t ∧ t.run = .running := ⟨_, rfl, rfl, rfl⟩
theorem witness_step_faults : ∃ t, State.run (withCode 0#16 [0xFF#8]) = .running ∧
    step (withCode 0#16 [0xFF#8]) = .next t ∧ t.run = .faulted := ⟨_, rfl, rfl, rfl⟩
theorem witness_UnregisteredOpcodeHalts :
    (State.reset.run = .running ∧ memRead State.reset State.reset.pc = .ok 0x00#8 ∧ primaryEntry 0x00#8 = none) ∧
    ((withCode 0x00FF#16 [0xCB#8, 0x00#8]).run = .running ∧ memRead (withCode 0x00FF#16 [0xCB#8, 0x00#8]) 0x00FF#16 = .ok escapeOpcode ∧
      memRead (withCode 0x00FF#16 [0xCB#8, 0x00#8]) 0x0100#16 = .ok 0x00#8 ∧ secondaryEntry 0x00#8 = none) := by decide
theorem witness_CyclesGrowByTheReportedCost :
    (∃ t, State.reset.run = .running ∧ exec .incB State.reset = .next t ∧ t.run = .running) ∧
    (∃ t, State.reset.run = .running ∧ exec .ldIndBcA State.reset = .next t ∧ t.run = .faulted) ∧
    State.reset.params.costs = defaultCosts :=
  ⟨⟨_, rfl, rfl, rfl⟩, ⟨_, rfl, rfl, rfl⟩, rfl⟩

theorem witness_LdBcImmediate : State.reset.params.costs = defaultCosts := rfl

/-- FetchedAs, second part, for the longest format. -/
theorem witness_FetchedAs_code : (withCode 0x00FE#16 [0x01#8, 0x34#8, 0x12#8]).run = .running ∧
    codeAt (withCode 0x00FE#16 [0x01#8, 0x34#8, 0x12#8]) 0x00FE#16 [0x01#8, loByte 0x1234#16, hiByte 0x1234#16] = true := by
  decide
/-- FetchedAs, third part: each byte of LD BC,d16 that may be unreadable. -/
theorem witness_FetchedAs_opcode : [0x01#8, 0x34#8, 0x12#8] = [] ++ 0x01#8 :: [0x34#8, 0x12#8] ∧
    codeAt (withCode 0x4000#16 []) 0x4000#16 [] = true ∧
    memRead (withCode 0x4000#16 []) (0x4000#16 + BitVec.ofNat 16 0) = .error (.addressing 0x4000#16 .read) := by decide
theorem witness_FetchedAs_low : [0x01#8, 0x34#8, 0x12#8] = [0x01#8] ++ 0x34#8 :: [0x12#8] ∧
    codeAt (withCode 0x3FFF#16 [0x01#8]) 0x3FFF#16 [0x01#8] = true ∧
    memRead (withCode 0x3FFF#16 [0x01#8]) (0x3FFF#16 + BitVec.ofNat 16 1) = .error (.addressing 0x4000#16 .read) := by decide
theorem witness_FetchedAs_high : [0x01#8, 0x34#8, 0x12#8] = [0x01#8, 0x34#8] ++ 0x12#8 :: [] ∧
    codeAt (withCode 0x3FFE#16 [0x01#8, 0x34#8]) 0x3FFE#16 [0x01#8, 0x34#8] = true ∧
    memRead (withCode 0x3FFE#16 [0x01#8, 0x34#8]) (0x3FFE#16 + BitVec.ofNat 16 2) = .error (.addressing 0x4000#16 .read) := by
  decide
theorem witness_StraddlingImmediate :
    let s := withCode 0x00FE#16 [0x01#8, 0x34#8, 0x12#8]
    s.run = .running ∧ s.bootEn = true ∧ s.pc = 0x00FE#16 ∧ 0x100 ≤ s.params.bootImage.len ∧
    0x101 ≤ s.params.cartImage.len ∧ Memory.read s.params.bootImage.cells 0xFE = 0x01#8 ∧
    Memory.read s.params.bootImage.cells 0xFF = 0x34#8 ∧ Memory.read s.params.cartImage.cells 0x100 = 0x12#8 := by decide

/-- StoresComplete, each clause: video RAM at both ends, and the I/O block. -/
theorem witness_StoresComplete :
    storable { State.reset with b := 0x80#8 } (State.pair { State.reset with b := 0x80#8 } .bc) ∧
    storable { State.reset with d := 0x9F#8, e := 0xFF#8 } (State.pair { State.reset with d := 0x9F#8, e := 0xFF#8 } .de) ∧
    storable { State.reset with h := 0xFF#8, l := 0x25#8 } (State.pair { State.reset with h := 0xFF#8, l := 0x25#8 } .hl) ∧
    storable State.reset (0xFF00#16 + (0x25#8).setWidth 16) ∧
    storable { State.reset with c := 0x25#8 } (0xFF00#16 + (State.c { State.reset with c := 0x25#8 }).setWidth 16) := by
  decide
/-- StoresRaiseByAddress, each instruction and each error. -/
theorem witness_StoresRaiseByAddress :
    (storeAddr State.reset .ldIndBcA = some 0x0000#16 ∧ storeError State.reset 0x0000#16 = some (.writeProtected 0x0000#16)) ∧
    (storeAddr { State.reset with d := 0x40#8 } .ldIndDeA = some 0x4000#16 ∧
      storeError { State.reset with d := 0x40#8 } 0x4000#16 = some (.addressing 0x4000#16 .write)) ∧
    (storeAddr { State.reset with h := 0xA0#8 } .ldIndHlDecA = some 0xA000#16 ∧
      storeError { State.reset with h := 0xA0#8 } 0xA000#16 = some (.addressing 0xA000#16 .write)) ∧
    (storeAddr State.reset (.ldhA8A 0x80#8) = some 0xFF80#16 ∧
      storeError State.reset 0xFF80#16 = some (.addressing 0xFF80#16 .write)) ∧
    (storeAddr State.reset .ldIndCA = some 0xFF00#16 ∧
      storeError State.reset 0xFF00#16 = some (.unknownRegister 0xFF00#16 0x00#8)) := by decide
theorem witness_StoreIsSeenByTheNextFetch :
    (∃ t, storeAddr { State.reset with b := 0x80#8 } .ldIndBcA = some 0x8000#16 ∧
      exec .ldIndBcA { State.reset with b := 0x80#8 } = .next t ∧ t.run = .running) ∧
    (∃ t, storeAddr State.reset (.ldhA8A 0x25#8) = some 0xFF25#16 ∧
      exec (.ldhA8A 0x25#8) State.reset = .next t ∧ t.run = .running) := ⟨⟨_, rfl, rfl, rfl⟩, ⟨_, rfl, rfl, rfl⟩⟩
theorem witness_JumpRelativeOnNotZero : State.reset.f.getLsbD 7 = false ∧
    (State.f { State.reset with f := 0x80#8 }).getLsbD 7 = true := by decide
theorem witness_EscapeDispatchesOneLevel : 0x7B#8 ≠ 0x7C#8 ∧ 0xCB#8 ≠ 0x7C#8 := by decide

theorem witness_FrameOfInstructionsThatStoreNothing :
    (∃ t, storeAddr State.reset .incB = none ∧ exec .incB State.reset = .next t) ∧
    (∃ t, storeAddr State.reset (.prefixCb 0x00#8) = none ∧ exec (.prefixCb 0x00#8) State.reset = .next t) ∧
    Reg8.a ≠ .f ∧ Reg8.a ∉ regsWritten .incB ∧ Flag.c ∉ flagsWritten State.reset.params .incB ∧
    (∀ v, Instr.incB ≠ .ldSpD16 v) ∧ (∀ op2, Instr.incB ≠ .prefixCb op2) :=
  ⟨⟨_, rfl, rfl⟩, ⟨_, rfl, rfl⟩, by decide, by decide, by decide, nofun, nofun⟩
theorem witness_FrameOfStores :
    (∃ t, storeAddr { State.reset with h := 0x80#8 } .ldIndHlDecA = some 0x8000#16 ∧
      exec .ldIndHlDecA { State.reset with h := 0x80#8 } = .next t) ∧
    (∃ t, storeAddr State.reset .ldIndBcA = some 0x0000#16 ∧ exec .ldIndBcA State.reset = .next t) ∧
    storable { State.reset with h := 0x80#8 } 0x8000#16 ∧ (0x8000#16).toNat < 0xFF00 ∧ 0x8001#16 ≠ 0x8000#16 :=
  ⟨⟨_, rfl, rfl⟩, ⟨_, rfl, rfl⟩, by decide, by decide, by decide⟩
/-- The hypotheses of StepKeepsOverlayAndParameters, StepNeverChangesRom, StepKeepsLowNibbleOfF,
AtMostOneHookCallPerStep and SpCyclesAndPeripheralAreNeverRead: a step that stores. -/
theorem witness_step_stores : ∃ t, step { withCode 0x0100#16 [0x02#8] with a := 0x5A#8, b := 0x81#8 } = .next t ∧
    (0x0000#16).toNat < 0x4000 ∧ (0x3FFF#16).toNat < 0x4000 ∧ 3 < 4 := ⟨_, rfl, by decide, by decide, by decide⟩
theorem witness_OnlyLdSpWritesSp : ∃ t, step (withCode 0x0010#16 [0x31#8, 0xFE#8, 0xFF#8]) = .next t ∧
    t.sp ≠ (withCode 0x0010#16 [0x31#8, 0xFE#8, 0xFF#8]).sp := ⟨_, rfl, by decide⟩
theorem witness_OnlyZeroFlagIsRead : ∃ t, (0x7F#8).getLsbD 7 = (withCode 0#16 [0x20#8, 0x05#8]).f.getLsbD 7 ∧
    step (withCode 0#16 [0x20#8, 0x05#8]) = .next t := ⟨_, by decide, rfl⟩
theorem witness_StepKeepsInvariant : Inv (withCode 0#16 [0x20#8, 0x05#8]) ∧
    ∃ t, step (withCode 0#16 [0x20#8, 0x05#8]) = .next t := ⟨⟨by decide, by decide, rfl⟩, _, rfl⟩
theorem witness_ResetValues : (0x8000#16).toNat < 0xA000 ∧ 0x8000 ≤ (0x9FFF#16).toNat ∧
    0xFF00 ≤ (0xFF00#16).toNat ∧ (0xFF7F#16).toNat < 0xFF80 := by decide
theorem witness_FirstFetchIsTheBootImage :
    (AfterReset State.reset ∧ 0 < State.reset.params.bootImage.len) ∧
    (AfterReset (bootLen { State.reset with a := 0x5A#8 } 0) ∧ (bootLen State.reset 0).params.bootImage.len = 0) := by
  decide

/-- HostActsWhenAllowed, each clause. -/
theorem witness_HostActsWhenAllowed :
    ((⟨.held, State.reset⟩ : Session).phase = .held ∧ (loadOf []).legal = true) ∧
    ((⟨.active, State.reset⟩ : Session).phase ≠ .held ∧ { loadOf [] with ioRecognised := [] }.legal = false) ∧
    ((⟨.released, State.reset⟩ : Session).phase = .released ∧ State.reset.run = .running) ∧
    (⟨.stopped, State.reset⟩ : Session).phase = .stopped ∧
    (raise State.reset (.writeProtected 0#16)).run = .faulted := by decide
theorem witness_ParametersStayOnceResetIsReleased :
    (⟨.released, State.reset⟩ : Session).phase ≠ .held ∧
    (∃ m, sessionStep ⟨.released, State.reset⟩ = some m) ∧
    ∃ m, hostAct ⟨.released, State.reset⟩ .reset = some m := ⟨by decide, ⟨_, rfl⟩, ⟨_, rfl⟩⟩
theorem witness_HostKeepsInvariant :
    Inv State.reset ∧ (∃ m, hostAct ⟨.held, State.reset⟩ (.load (loadOf [0xAF#8])) = some m) ∧
    (∃ m, hostAct ⟨.released, State.reset⟩ (.poke (.byte 0x8000#16 1#8)) = some m) ∧
    ∃ m, sessionStep ⟨.released, State.reset⟩ = some m :=
  ⟨⟨by decide, by decide, rfl⟩, ⟨_, rfl⟩, ⟨_, rfl⟩, ⟨_, rfl⟩⟩
theorem witness_OnlyResetLeavesFaulted :
    (raise State.reset (.writeProtected 0#16)).run = .faulted ∧ HostAction.observe ≠ .reset ∧
    ∃ m, hostAct ⟨.active, raise State.reset (.writeProtected 0#16)⟩ .observe = some m := ⟨rfl, by decide, _, rfl⟩

/-! One witness per row of the table of R183. -/

theorem witness_Raise_opcodeFetch : RaiseRow (withCode 0x4000#16 []) (.addressing 0x4000#16 .read) :=
  .opcodeFetch ⟨_, rfl⟩ rfl
theorem witness_Raise_resolve : RaiseRow State.reset (.unknownOpcode .primary 0x00#8) := .resolve 0x00#8 rfl (by decide) rfl
theorem witness_Raise_secondaryFetch : RaiseRow (withCode 0x3FFF#16 [0xCB#8]) (.addressing 0x4000#16 .read) :=
  .secondaryFetch rfl ⟨_, rfl⟩ rfl
theorem witness_Raise_secondaryResolve : RaiseRow (withCode 0#16 [0xCB#8, 0x7D#8]) (.unknownOpcode .secondary 0x7D#8) :=
  .secondaryResolve 0x7D#8 rfl rfl (by decide) rfl
theorem witness_Raise_firstImmediate : RaiseRow (withCode 0x3FFF#16 [0x20#8]) (.addressing 0x4000#16 .read) :=
  .firstImmediate 0x20#8 rfl (by decide) ⟨_, rfl⟩ rfl
theorem witness_Raise_secondImmediate : RaiseRow (withCode 0x3FFE#16 [0x01#8, 0x34#8]) (.addressing 0x4000#16 .read) :=
  .secondImmediate 0x01#8 0x34#8 rfl (by decide) rfl ⟨_, rfl⟩ rfl
theorem witness_Raise_store : RaiseRow (withCode 0#16 [0xE0#8, 0x80#8]) (.addressing 0xFF80#16 .write) :=
  .store 0xE0#8 0x80#8 0xFF80#16 rfl (fun _ => rfl) rfl rfl

end Sys2Proof.Tests
end

section
/-! PROOFS. The family 00_scope.md: a step completes or leaves the state before it (R8), and the parameters stay once reset is released (R5). -/

namespace Sys2Proof.Machine

open Sys2Proof

/-- What a completed instruction leaves as it was, whatever it is: CommitFlags and Advance write F and `cycles` alone
(R108, R109), and an effect keeps the rest (`effOf_frame`). -/
theorem completed_frame {i : Instr} {s : State} {r : Effect} (h : effOf i (pastFetch s i.length) = .ok r) :
    (completed r).run = s.run ∧ (completed r).fault = s.fault ∧ (completed r).bootEn = s.bootEn ∧
    (completed r).params = s.params := by
  obtain ⟨hrun, hfault, hboot, hparams, -, -⟩ := effOf_frame h
  exact ⟨hrun, hfault, hboot, hparams⟩

/-- Every step raises an error on the state before it, or completes the instruction it fetched (R8, R110). -/
theorem step_raises_or_completes {s t : State} (h : step s = .next t) :
    (∃ err, t = raise s err) ∨
    ∃ i r, fetchInstr s = .ok i ∧ effOf i (pastFetch s i.length) = .ok r ∧ t = completed r := by
  obtain ⟨-, ⟨err, -, hraise⟩ | ⟨i, hfetch, hexec⟩⟩ := step_cases h
  · exact .inl ⟨err, hraise⟩
  · obtain ⟨err, -, hraise⟩ | ⟨r, heff, hdone⟩ := exec_cases hexec
    · exact .inl ⟨err, hraise⟩
    · exact .inr ⟨i, r, hfetch, heff, hdone⟩

/-- No step changes a parameter (R5), whether it raises or completes. -/
theorem step_params {s t : State} (h : step s = .next t) : t.params = s.params := by
  obtain ⟨err, rfl⟩ | ⟨i, r, -, heff, rfl⟩ := step_raises_or_completes h
  · exact raise_params s err
  · obtain ⟨-, -, -, hparams⟩ := completed_frame heff
    exact hparams

/-- A step under the host keeps the parameters and leaves the session active (R5, R217). -/
theorem sessionStep_params_phase {k m : Session} (h : sessionStep k = some m) :
    m.machine.params = k.machine.params ∧ m.phase = .active := by
  obtain ⟨-, t, hstep, rfl⟩ := sessionStep_cases h
  exact ⟨step_params hstep, rfl⟩

/-- Of the host's actions only a load changes parameters, and none leads back to the phase that allows one
(R211, R216). -/
theorem hostAct_params_phase {k m : Session} {a : HostAction} (hk : k.phase ≠ .held) (h : hostAct k a = some m) :
    m.machine.params = k.machine.params ∧ m.phase ≠ .held := by
  obtain ⟨x, -, hheld, -⟩ | ⟨-, rfl⟩ | ⟨-, rfl⟩ | ⟨-, -, rfl⟩ | ⟨v, -, -, rfl⟩ | ⟨p, t, -, -, hpoke, rfl⟩ :=
    hostAct_cases h
  · exact absurd hheld hk
  · exact ⟨hostReset_params k.machine, nofun⟩
  · exact ⟨rfl, hk⟩
  · exact ⟨rfl, nofun⟩
  · exact ⟨hostSetBootEn_params k.machine v, hk⟩
  · obtain ⟨-, hparams, -⟩ := hostPoke_frame hpoke
    exact ⟨hparams, hk⟩

/-- Settles O18: a raise is the second case by definition, and a completed instruction keeps `run` and the fault
record. -/
theorem faultLeavesTheStateBefore : Obligations.FaultLeavesTheStateBefore := by
  intro s t hrunning hstep
  obtain ⟨err, rfl⟩ | ⟨i, r, -, heff, rfl⟩ := step_raises_or_completes hstep
  · exact .inr ⟨err, rfl⟩
  · obtain ⟨hrun, hfault, -, -⟩ := completed_frame heff
    exact .inl ⟨hrun.trans hrunning, hfault⟩

/-- Settles O54: a load needs the phase that reset has left, and every other action and every step keeps the
parameters. -/
theorem parametersStayOnceResetIsReleased : Obligations.ParametersStayOnceResetIsReleased := by
  intro k m hk hnext
  obtain hstep | ⟨a, hact⟩ := hnext
  · obtain ⟨hparams, hphase⟩ := sessionStep_params_phase hstep
    exact ⟨hparams, by simp [hphase]⟩
  · exact hostAct_params_phase hk hact

end Sys2Proof.Machine
end

section
/-! PROOFS. The family 10_state.md: the register file and the flags (R11 to R23), what each instruction writes and
leaves unchanged, what a step keeps and what it reads (R15 to R30), and the values at reset (R34). -/

namespace Sys2Proof.Machine

open Sys2Proof

/-! The register file and the flags. -/

/-- The two registers of a pair are different ones (R13). -/
theorem Pair.high_ne_low (p : Pair) : p.high ≠ p.low := by cases p <;> decide

@[simp] theorem pair_toNat (s : State) (p : Pair) :
    (s.pair p).toNat = (s.reg p.high).toNat * 256 + (s.reg p.low).toNat :=
  joinBytes_toNat _ _

@[simp] theorem reg_writeReg_same (s : State) (r : Reg8) (v : Nat) : (s.writeReg r v).reg r = BitVec.ofNat 8 v :=
  reg_setReg_same s r _

theorem reg_writeReg_of_ne (s : State) {q r : Reg8} (v : Nat) (h : q ≠ r) : (s.writeReg r v).reg q = s.reg q :=
  reg_setReg_of_ne s r _ h

@[simp] theorem reg_writePair_high (s : State) (p : Pair) (v : Nat) :
    (s.writePair p v).reg p.high = BitVec.ofNat 8 (v / 256) := by
  rw [State.writePair, reg_writeReg_of_ne _ _ p.high_ne_low, reg_writeReg_same]

@[simp] theorem reg_writePair_low (s : State) (p : Pair) (v : Nat) :
    (s.writePair p v).reg p.low = BitVec.ofNat 8 v :=
  reg_writeReg_same _ _ _

theorem reg_writePair_of_ne (s : State) (p : Pair) (v : Nat) {q : Reg8} (hhigh : q ≠ p.high) (hlow : q ≠ p.low) :
    (s.writePair p v).reg q = s.reg q := by
  rw [State.writePair, reg_writeReg_of_ne _ _ hlow, reg_writeReg_of_ne _ _ hhigh]

@[simp] theorem reg_raise (s : State) (err : FatalError) (q : Reg8) : (raise s err).reg q = s.reg q := by
  cases q <;> rfl

theorem reg_setPair_of_ne (s : State) (p : Pair) (v : Word) {q : Reg8} (hhigh : q ≠ p.high) (hlow : q ≠ p.low) :
    (s.setPair p v).reg q = s.reg q := by
  rw [State.setPair, reg_setReg_of_ne _ _ _ hlow, reg_setReg_of_ne _ _ _ hhigh]

/-- The directive of each flag (R92, R107). -/
def Directives.get (ds : Directives) : Flag → Option Bool
  | .z => ds.dZ
  | .n => ds.dN
  | .h => ds.dH
  | .c => ds.dC

@[simp] theorem Directives.get_unset (k : Flag) : Directives.unset.get k = none := by cases k <;> rfl

/-- CommitFlags flag by flag: the directive where there is one, else the old flag (R108). -/
theorem getFlag_commitFlags (ds : Directives) (f : Byte) (k : Flag) :
    getFlag (commitFlags ds f) k = (ds.get k).getD (getFlag f k) := by
  cases k <;> exact getLsbD_commitFlags ds f _

/-- CommitFlags never touches the low nibble of F (R24, R108). -/
theorem getLsbD_commitFlags_low (ds : Directives) (f : Byte) {n : Nat} (hn : n < 4) :
    (commitFlags ds f).getLsbD n = f.getLsbD n := by
  rw [getLsbD_commitFlags, if_neg (by omega), if_neg (by omega), if_neg (by omega), if_neg (by omega)]

/-! The bus: reads of the two memories, and a write seen from the other addresses. -/

theorem memRead_vram (s : State) {addr : Word} (hlo : 0x8000 ≤ addr.toNat) (hhi : addr.toNat < 0xA000) :
    memRead s addr = .ok (s.vram.read (addr.toNat - 0x8000)) := by
  obtain ⟨-, hlt, -⟩ | ⟨hlt, -, -⟩ | ⟨-, -, hsel⟩ | ⟨hge, -, -⟩ | ⟨-, hout, -, -⟩ := select_cases s.bootEn addr
  case inr.inr.inl => simp only [memRead, hsel]
  all_goals omega

theorem memRead_io (s : State) {addr : Word} (hlo : 0xFF00 ≤ addr.toNat) (hhi : addr.toNat < 0xFF80) :
    memRead s addr = .ok (s.io.read (addr.toNat - 0xFF00)) := by
  obtain ⟨-, hlt, -⟩ | ⟨hlt, -, -⟩ | ⟨-, hlt, -⟩ | ⟨-, -, hsel⟩ | ⟨-, -, hout, -⟩ := select_cases s.bootEn addr
  case inr.inr.inr.inl => simp only [memRead, hsel]
  all_goals omega

/-- A read depends on the overlay, the images, and the one byte of a memory at its address. -/
theorem memRead_congr_at {s t : State} {addr : Word} (hboot : t.bootEn = s.bootEn) (hparams : t.params = s.params)
    (hvram : 0x8000 ≤ addr.toNat → addr.toNat < 0xA000 →
      t.vram.read (addr.toNat - 0x8000) = s.vram.read (addr.toNat - 0x8000))
    (hio : 0xFF00 ≤ addr.toNat → addr.toNat < 0xFF80 →
      t.io.read (addr.toNat - 0xFF00) = s.io.read (addr.toNat - 0xFF00)) :
    memRead t addr = memRead s addr := by
  obtain ⟨-, -, hsel⟩ | ⟨-, -, hsel⟩ | ⟨hlo, hhi, -⟩ | ⟨hlo, hhi, -⟩ | ⟨-, -, -, hsel⟩ := select_cases s.bootEn addr
  case inr.inr.inl => rw [memRead_vram t hlo hhi, memRead_vram s hlo hhi, hvram hlo hhi]
  case inr.inr.inr.inl => rw [memRead_io t hlo hhi, memRead_io s hlo hhi, hio hlo hhi]
  all_goals simp only [memRead, hboot, hparams, hsel]

/-- After a write every other address reads as before (R47). -/
theorem memRead_memWrite_of_ne {s t : State} {addr other : Word} {v : Byte} (h : memWrite s addr v = .ok t)
    (hne : other ≠ addr) : memRead t other = memRead s other := by
  have hne : other.toNat ≠ addr.toNat := fun heq => hne (BitVec.eq_of_toNat_eq heq)
  obtain ⟨hlo, hhi, e⟩ | ⟨hlo, hhi, -, e⟩ | ⟨-, e⟩ | ⟨-, -, -, e⟩ | ⟨-, -, -, e⟩ := memWrite_cases s addr v <;>
    rw [e] at h <;> cases h
  · exact memRead_congr_at rfl rfl (fun _ _ => by rw [Memory.read_write, if_neg (by omega)]) (fun _ _ => rfl)
  · exact memRead_congr_at rfl rfl (fun _ _ => rfl) (fun _ _ => by rw [Memory.read_write, if_neg (by omega)])

@[simp] theorem memRead_raise (s : State) (err : FatalError) (addr : Word) :
    memRead (raise s err) addr = memRead s addr :=
  memRead_congr rfl rfl rfl rfl addr

/-- The peripheral state after a write that succeeds: the hook answers it for an address of the I/O block (R67). -/
def hookAfter (addr : Word) (v : Byte) (q : Periph) : Periph :=
  if 0xFF00 ≤ addr.toNat then Config.ioHook addr v q else q

/-- A write that succeeds changes at most one byte, within its region's size, and calls the hook for the I/O block. -/
theorem memWrite_memories {s t : State} {addr : Word} {v : Byte} (h : memWrite s addr v = .ok t) :
    (t.vram = s.vram ∨ ∃ off < 0x2000, t.vram = s.vram.write off v) ∧
    (t.io = s.io ∨ ∃ off < 0x80, t.io = s.io.write off v) ∧ t.periph = hookAfter addr v s.periph := by
  obtain ⟨hlo, hhi, e⟩ | ⟨hlo, hhi, -, e⟩ | ⟨-, e⟩ | ⟨-, -, -, e⟩ | ⟨-, -, -, e⟩ := memWrite_cases s addr v <;>
    rw [e] at h <;> cases h
  · exact ⟨.inr ⟨_, by omega, rfl⟩, .inl rfl, (if_neg (by omega)).symm⟩
  · exact ⟨.inl rfl, .inr ⟨_, by omega, rfl⟩, (if_pos hlo).symm⟩

/-- A write leaves the register file alone. -/
theorem memWrite_reg {s t : State} {addr : Word} {v : Byte} (h : memWrite s addr v = .ok t) (q : Reg8) :
    t.reg q = s.reg q := by
  obtain ⟨ha, hb, hc, hd, he, hf, hh, hl, -⟩ := memWrite_frame h
  cases q <;> assumption

/-- A write to a storable address succeeds (R145). -/
theorem memWrite_of_storable {s : State} {addr : Word} (v : Byte) (h : storable s addr) :
    ∃ t, memWrite s addr v = .ok t := by
  obtain ⟨-, -, e⟩ | ⟨-, -, -, e⟩ | ⟨hlt, -⟩ | ⟨-, hv, hio, -⟩ | ⟨hlo, -, hrec, -⟩ := memWrite_cases s addr v
  · exact ⟨_, e⟩
  · exact ⟨_, e⟩
  · omega
  · omega
  · obtain ⟨-, hhi⟩ | ⟨-, -, hmem⟩ := h
    · omega
    · exact absurd hmem hrec

/-! What an instruction's effect does. -/

/-- SP after a completed instruction (R19). -/
def spAfter : Instr → Word → Word
  | .ldSpD16 v, _ => v
  | _, sp => sp

/-- The state with PC and SP where the completed instruction leaves them (R17, R19). -/
abbrev moved (s : State) (i : Instr) : State := { s with pc := pcAfter s i, sp := spAfter i s.sp }

theorem reg_moved (s : State) (i : Instr) (q : Reg8) : (moved s i).reg q = s.reg q := by cases q <;> rfl

/-- A store's working copy after its bus write: LD (HL-),A alone goes on to write HL (R142). -/
def afterWrite (i : Instr) (addr : Word) (t : State) : State :=
  if i = .ldIndHlDecA then t.setPair .hl (addr - 1#16) else t

section
variable (i : Instr) (addr : Word) (t : State)

/-- What `afterWrite` leaves alone: everything but the register file. -/
theorem afterWrite_frame : (afterWrite i addr t).pc = t.pc ∧ (afterWrite i addr t).sp = t.sp ∧
    (afterWrite i addr t).vram = t.vram ∧ (afterWrite i addr t).io = t.io ∧
    (afterWrite i addr t).periph = t.periph := by
  unfold afterWrite
  split <;> simp

theorem memRead_afterWrite (other : Word) : memRead (afterWrite i addr t) other = memRead t other := by
  unfold afterWrite
  split
  · exact memRead_congr (setPair_bootEn ..) (setPair_params ..) (setPair_vram ..) (setPair_io ..) other
  · rfl

theorem reg_afterWrite {q : Reg8} (hq : i = .ldIndHlDecA → q ≠ .h ∧ q ≠ .l) :
    (afterWrite i addr t).reg q = t.reg q := by
  unfold afterWrite
  split
  next hi =>
    obtain ⟨hh, hl⟩ := hq hi
    exact reg_setPair_of_ne t .hl _ hh hl
  next => rfl

end

/-- The working copy of a completed effect, PC and SP apart, which are already where the instruction leaves them: the
one bus write of a store, or at most one write to the register file. -/
inductive Executed (s : State) (i : Instr) : State → Prop where
  | store {addr : Word} {t : State} (ha : storeAddr s i = some addr) (hw : memWrite (moved s i) addr s.a = .ok t) :
      Executed s i (afterWrite i addr t)
  | pair (ha : storeAddr s i = none) (p : Pair) {v : Word} (hi : regsWritten i = [p.high, p.low]) :
      Executed s i ((moved s i).setPair p v)
  | reg (ha : storeAddr s i = none) {q : Reg8} {v : Byte} (hi : regsWritten i = [q]) :
      Executed s i ((moved s i).setReg q v)
  | noRegister (ha : storeAddr s i = none) : Executed s i (moved s i)

/-- A store leaves PC past its own bytes and SP as it was. -/
theorem pastFetch_of_store {s : State} {i : Instr} {addr : Word} (ha : storeAddr s i = some addr) :
    pastFetch s i.length = moved s i := by
  cases i <;> cases ha <;> rfl

/-- The only registers a store writes are those of HL, in LD (HL-),A (R15). -/
theorem not_mem_regsWritten_of_store {s : State} {i : Instr} {addr : Word} (ha : storeAddr s i = some addr)
    {q : Reg8} : q ∉ regsWritten i ↔ (i = .ldIndHlDecA → q ≠ .h ∧ q ≠ .l) := by
  cases i <;> cases ha <;> simp [regsWritten]

/-- A store's effect: the bus write, no directive. -/
theorem effOf_store_ok {s : State} {i : Instr} {addr : Word} {r : Effect} (ha : storeAddr s i = some addr)
    (h : effOf i (pastFetch s i.length) = .ok r) :
    r.dirs = .unset ∧ ∃ t, memWrite (moved s i) addr s.a = .ok t ∧ r.work = afterWrite i addr t := by
  rw [effOf_store ha, pastFetch_of_store ha] at h
  split at h
  · cases h
  · rename_i t hw
    cases h
    exact ⟨rfl, t, hw, rfl⟩

/-- The escape completes only as BIT 7,H (R175). -/
theorem effPrefixCb_ok {op2 : Byte} {w : State} {r : Effect} (h : effPrefixCb op2 w = .ok r) : effBit7H w = .ok r := by
  unfold effPrefixCb at h
  split at h
  · cases h
  · rename_i nested _
    cases nested
    exact h

/-- The jump's effect: PC alone, no directive, the cost of the branch taken (R170, R171). -/
theorem effOf_jrNzE8 (s : State) (e : Byte) :
    effOf (.jrNzE8 e) (pastFetch s 2) = .ok ⟨moved s (.jrNzE8 e), .unset, costOf s (.jrNzE8 e)⟩ := by
  by_cases hz : s.flag .z = false
  · rw [moved, pcAfter, costOf, if_pos hz, if_pos hz]
    exact if_pos hz
  · rw [moved, pcAfter, costOf, if_neg hz, if_neg hz]
    exact if_neg hz

/-- Every completed effect is of one of the four kinds. -/
theorem executed_of_effOf {i : Instr} {s : State} {r : Effect} (h : effOf i (pastFetch s i.length) = .ok r) :
    Executed s i r.work := by
  cases ha : storeAddr s i with
  | some addr =>
    obtain ⟨-, t, hw, hwork⟩ := effOf_store_ok ha h
    exact hwork ▸ .store ha hw
  | none =>
    cases i with
    | ldIndBcA | ldIndDeA | ldIndHlDecA | ldhA8A | ldIndCA => cases ha
    | ldBcD16 => cases h; exact .pair ha .bc rfl
    | ldDeD16 => cases h; exact .pair ha .de rfl
    | ldHlD16 => cases h; exact .pair ha .hl rfl
    | ldBD8 | ldCD8 | ldDD8 | ldED8 | ldHD8 | ldLD8 | ldAD8 => cases h; exact .reg ha rfl
    | incB | incC | incD | incE | incH | incL | incA | xorA => cases h; exact .reg ha rfl
    | jrNzE8 e => cases (effOf_jrNzE8 s e).symm.trans h; exact .noRegister ha
    | ldSpD16 | bit7H => cases h; exact .noRegister ha
    | prefixCb => cases effPrefixCb_ok h; exact .noRegister ha

/-- An effect raises only as a store whose bus write does, or as the escape (R183). -/
theorem effOf_error_cases {i : Instr} {s : State} {err : FatalError}
    (h : effOf i (pastFetch s i.length) = .error err) :
    (∃ addr, storeAddr s i = some addr ∧ memWrite (moved s i) addr s.a = .error err) ∨ ∃ op2, i = .prefixCb op2 := by
  cases ha : storeAddr s i with
  | some addr =>
    rw [effOf_store ha, pastFetch_of_store ha] at h
    split at h
    · rename_i hw
      cases h
      exact .inl ⟨addr, rfl, hw⟩
    · cases h
  | none =>
    cases i with
    | ldIndBcA | ldIndDeA | ldIndHlDecA | ldhA8A | ldIndCA => cases ha
    | prefixCb op2 => exact .inr ⟨op2, rfl⟩
    | jrNzE8 e => cases (effOf_jrNzE8 s e).symm.trans h
    | _ => cases h

/-- INC r leaves the C directive unset (R150). -/
theorem incDirectives_get (rule : IncHRule) (old res : Byte) {k : Flag} (hk : k ∉ [Flag.z, .n, .h]) :
    (incDirectives rule old res).get k = none := by
  cases k with
  | c => rfl
  | z | n | h => simp at hk

/-- The bit test leaves C unset, and under `untouched` N and H too (R176). -/
theorem bitDirectives_get (p : Params) (bit : Bool) {k : Flag} (hk : k ∉ flagsWritten p .bit7H) :
    (bitDirectives p.bitNhRule bit).get k = none := by
  unfold flagsWritten at hk
  cases k with
  | z => cases hrule : p.bitNhRule <;> simp [hrule] at hk
  | n | h => cases hrule : p.bitNhRule <;> simp [hrule, bitDirectives, Directives.get] at hk ⊢
  | c => rfl

/-- A flag that the instruction does not write has no directive (R23). -/
theorem effOf_dirs_get {i : Instr} {s : State} {r : Effect} (h : effOf i (pastFetch s i.length) = .ok r) {k : Flag}
    (hk : k ∉ flagsWritten s.params i) : r.dirs.get k = none := by
  cases i with
  | incB | incC | incD | incE | incH | incL | incA => cases h; exact incDirectives_get _ _ _ hk
  | xorA => cases k <;> simp [flagsWritten] at hk
  | jrNzE8 e => cases (effOf_jrNzE8 s e).symm.trans h; exact Directives.get_unset k
  | bit7H => cases h; exact bitDirectives_get s.params _ hk
  | prefixCb => cases effPrefixCb_ok h; exact bitDirectives_get s.params _ hk
  | ldIndBcA | ldIndDeA | ldIndHlDecA | ldhA8A | ldIndCA =>
    obtain ⟨hdirs, -⟩ := effOf_store_ok rfl h
    rw [hdirs, Directives.get_unset]
  | _ => cases h; exact Directives.get_unset k

/-! What a completed effect changes and leaves unchanged. -/

/-- The peripheral state after a completed instruction (R30). -/
def periphAfter (s : State) (i : Instr) (q : Periph) : Periph :=
  match storeAddr s i with
  | some addr => hookAfter addr s.a q
  | none => q

theorem spAfter_of_ne {i : Instr} (h : ∀ v, i ≠ .ldSpD16 v) (sp : Word) : spAfter i sp = sp := by
  unfold spAfter
  split
  · exact absurd rfl (h _)
  · rfl

theorem periphAfter_of_storeAddr_eq_none {s : State} {i : Instr} (ha : storeAddr s i = none) (q : Periph) :
    periphAfter s i q = q := by
  simp only [periphAfter, ha]

theorem periphAfter_of_store {s : State} {i : Instr} {addr : Word} (ha : storeAddr s i = some addr) (q : Periph) :
    periphAfter s i q = hookAfter addr s.a q := by
  simp only [periphAfter, ha]

namespace Executed

variable {s w : State} {i : Instr}

theorem pc_eq (h : Executed s i w) : w.pc = pcAfter s i := by
  cases h with
  | store ha hw =>
    obtain ⟨-, -, -, -, -, -, -, -, hpc, -⟩ := memWrite_frame hw
    obtain ⟨hpcAfter, -⟩ := afterWrite_frame i _ _
    exact hpcAfter.trans hpc
  | pair | reg => simp
  | noRegister => rfl

theorem sp_eq (h : Executed s i w) : w.sp = spAfter i s.sp := by
  cases h with
  | store ha hw =>
    obtain ⟨-, -, -, -, -, -, -, -, -, hsp, -⟩ := memWrite_frame hw
    obtain ⟨-, hspAfter, -⟩ := afterWrite_frame i _ _
    exact hspAfter.trans hsp
  | pair | reg => simp
  | noRegister => rfl

/-- The registers that the instruction does not write, F among them: an effect leaves F to CommitFlags (R15, R108). -/
theorem reg_eq (h : Executed s i w) {q : Reg8} (hq : q ∉ regsWritten i) : w.reg q = s.reg q := by
  cases h with
  | store ha hw =>
    rw [reg_afterWrite _ _ _ ((not_mem_regsWritten_of_store ha).mp hq), memWrite_reg hw]
    exact reg_moved s i q
  | pair ha p hi =>
    simp only [hi, List.mem_cons, List.not_mem_nil, or_false, not_or] at hq
    obtain ⟨hhigh, hlow⟩ := hq
    rw [reg_setPair_of_ne _ _ _ hhigh hlow]
    exact reg_moved s i q
  | reg ha hi =>
    simp only [hi, List.mem_singleton] at hq
    rw [reg_setReg_of_ne _ _ _ hq]
    exact reg_moved s i q
  | noRegister => exact reg_moved s i q

theorem memories_of_storeAddr_eq_none (h : Executed s i w) (ha : storeAddr s i = none) :
    w.vram = s.vram ∧ w.io = s.io ∧ w.periph = s.periph := by
  cases h with
  | store ha' hw => cases ha.symm.trans ha'
  | pair | reg => simp
  | noRegister => exact ⟨rfl, rfl, rfl⟩

/-- The two memories change in at most one byte, within their sizes; the peripheral state by the hook alone. -/
theorem memories (h : Executed s i w) :
    (w.vram = s.vram ∨ ∃ off < 0x2000, w.vram = s.vram.write off s.a) ∧
    (w.io = s.io ∨ ∃ off < 0x80, w.io = s.io.write off s.a) ∧ w.periph = periphAfter s i s.periph := by
  cases ha : storeAddr s i with
  | none =>
    obtain ⟨hvram, hio, hperiph⟩ := h.memories_of_storeAddr_eq_none ha
    exact ⟨.inl hvram, .inl hio, hperiph.trans (periphAfter_of_storeAddr_eq_none ha _).symm⟩
  | some addr =>
    cases h with
    | pair ha' | reg ha' | noRegister ha' => cases ha.symm.trans ha'
    | store ha' hw =>
      obtain ⟨-, -, hvram, hio, hperiph⟩ := afterWrite_frame i _ _
      rw [hvram, hio, hperiph, periphAfter_of_store ha']
      have hmem := memWrite_memories hw
      exact hmem

/-- A store leaves every address but its own as it was (R47). -/
theorem memRead_of_store (h : Executed s i w) {addr other : Word} (ha : storeAddr s i = some addr)
    (hne : other ≠ addr) : memRead w other = memRead s other := by
  cases h with
  | pair ha' | reg ha' | noRegister ha' => cases ha.symm.trans ha'
  | store ha' hw =>
    cases ha.symm.trans ha'
    rw [memRead_afterWrite, memRead_memWrite_of_ne hw hne]
    exact memRead_congr rfl rfl rfl rfl other

end Executed

/-- CommitFlags and Advance write F and `cycles` alone (R108, R109). -/
theorem completed_reg (r : Effect) {q : Reg8} (hq : q ≠ .f) : (completed r).reg q = r.work.reg q := by
  cases q with
  | f => exact absurd rfl hq
  | _ => rfl

/-- Without directives CommitFlags leaves F too (R108). -/
theorem completed_reg_of_unset {r : Effect} (hdirs : r.dirs = .unset) (q : Reg8) :
    (completed r).reg q = r.work.reg q := by
  cases q with
  | f => simp [State.reg, hdirs]
  | _ => rfl

/-- A completed instruction keeps each flag that it does not write (R23). -/
theorem completed_flag {i : Instr} {s : State} {r : Effect} (h : effOf i (pastFetch s i.length) = .ok r) {k : Flag}
    (hk : k ∉ flagsWritten s.params i) : (completed r).flag k = s.flag k := by
  obtain ⟨-, -, -, -, hf, -⟩ := effOf_frame h
  calc (completed r).flag k = (r.dirs.get k).getD (getFlag r.work.f k) := getFlag_commitFlags r.dirs r.work.f k
    _ = s.flag k := by rw [effOf_dirs_get h hk, hf]; rfl

/-- A completed instruction keeps the low nibble of F (R24). -/
theorem completed_getLsbD_low {i : Instr} {s : State} {r : Effect} (h : effOf i (pastFetch s i.length) = .ok r)
    {n : Nat} (hn : n < 4) : (completed r).f.getLsbD n = s.f.getLsbD n := by
  obtain ⟨-, -, -, -, hf, -⟩ := effOf_frame h
  exact (getLsbD_commitFlags_low r.dirs r.work.f hn).trans (by rw [hf])

/-! The invariant. -/

/-- Writing at most one byte within a memory's size keeps it canonical and within its size. -/
theorem Memory.wf_within_of_write {m m' : Memory} {bound : Nat} {v : Byte} (hwf : Memory.wf m)
    (hin : Memory.within bound m) (h : m' = m ∨ ∃ off < bound, m' = m.write off v) :
    Memory.wf m' ∧ Memory.within bound m' := by
  obtain rfl | ⟨off, hoff, rfl⟩ := h
  · exact ⟨hwf, hin⟩
  · exact ⟨Memory.write_wf off v hwf, Memory.write_within v hin hoff⟩

/-- A raise keeps the invariant: the record's pc is the PC that it keeps (R181). -/
theorem inv_raise {s : State} (err : FatalError) (h : Inv s) : Inv (raise s err) := by
  obtain ⟨hmem, hparams, -⟩ := h
  exact ⟨hmem, hparams, rfl, rfl⟩

/-- Of a running machine `faultOk` says that there is no fault record (R29). -/
theorem faultOk_iff_of_running {s : State} (hrun : s.run = .running) : faultOk s ↔ s.fault = none := by
  unfold faultOk
  split
  next hnone => simp [hrun, hnone]
  next hsome => simp [hrun, hsome]

/-- A completed instruction keeps the invariant. -/
theorem inv_completed {i : Instr} {s : State} {r : Effect} (hrunning : s.run = .running)
    (heff : effOf i (pastFetch s i.length) = .ok r) (h : Inv s) : Inv (completed r) := by
  obtain ⟨⟨hvwf, hvin, hiwf, hiin⟩, hparams, hfault⟩ := h
  obtain ⟨hvram, hio, -⟩ := (executed_of_effOf heff).memories
  obtain ⟨hrun, hfault', -, hparams'⟩ := completed_frame heff
  obtain ⟨hvwf', hvin'⟩ := Memory.wf_within_of_write hvwf hvin hvram
  obtain ⟨hiwf', hiin'⟩ := Memory.wf_within_of_write hiwf hiin hio
  have hnone : (completed r).fault = none := hfault'.trans ((faultOk_iff_of_running hrunning).mp hfault)
  exact ⟨⟨hvwf', hvin', hiwf', hiin'⟩, hparams'.symm ▸ hparams,
    (faultOk_iff_of_running (hrun.trans hrunning)).mpr hnone⟩

/-- Settles O48: a raise records the PC it keeps; a completed instruction writes at most one byte of memory and leaves
`run`, the fault record and the parameters. -/
theorem stepKeepsInvariant : Obligations.StepKeepsInvariant := by
  intro s t hinv hstep
  obtain ⟨hrunning, -⟩ := step_cases hstep
  obtain ⟨err, rfl⟩ | ⟨i, r, -, heff, rfl⟩ := step_raises_or_completes hstep
  · exact inv_raise err hinv
  · exact inv_completed hrunning heff hinv

/-! The statements about single steps and instructions. -/

/-- Settles O2: each half is masked on its own write, and the two registers of a pair differ. -/
theorem pairWriteSplitsAndReadsBack : Obligations.PairWriteSplitsAndReadsBack := by
  intro s p v
  have hhigh : ((s.writePair p v).reg p.high).toNat = v / 256 % 256 := by
    rw [reg_writePair_high, BitVec.toNat_ofNat]
  have hlow : ((s.writePair p v).reg p.low).toNat = v % 256 := by
    rw [reg_writePair_low, BitVec.toNat_ofNat]
  refine ⟨hhigh, hlow, ?_, pair_toNat s p, rfl, rfl, fun q hqh hql => reg_writePair_of_ne s p v hqh hql⟩
  rw [pair_toNat, hhigh, hlow]
  omega

/-- Settles O4: a setter, bit by bit. -/
theorem flagSettersAreIndependent : Obligations.FlagSettersAreIndependent := by
  intro f k v
  refine ⟨rfl, rfl, ?_, fun i hi => ?_⟩
  · rw [getFlag, getLsbD_setFlag, if_pos rfl]
  · rw [getLsbD_setFlag, if_neg hi]

/-- Settles O22: a raise keeps PC, and every completed effect leaves it where `pcAfter` says. -/
theorem pcAfterEachInstruction : Obligations.PcAfterEachInstruction := by
  intro s t hrunning hstep
  obtain ⟨err, rfl⟩ | ⟨i, r, hfetch, heff, rfl⟩ := step_raises_or_completes hstep
  · exact ⟨fun _ => raise_pc s err, nofun⟩
  · obtain ⟨hrun, -⟩ := completed_frame heff
    exact ⟨fun hfaulted => (nomatch hfaulted.symm.trans (hrun.trans hrunning)),
      fun _ => ⟨i, hfetch, (executed_of_effOf heff).pc_eq⟩⟩

/-- Settles O39: the escape alone can raise, and a completed effect that stores nothing writes at most the registers
and flags listed. -/
theorem frameOfInstructionsThatStoreNothing : Obligations.FrameOfInstructionsThatStoreNothing := by
  intro i s t ha hexec
  obtain ⟨err, herr, rfl⟩ | ⟨r, heff, rfl⟩ := exec_cases hexec
  · obtain ⟨addr, ha', -⟩ | ⟨op2, rfl⟩ := effOf_error_cases herr
    · cases ha.symm.trans ha'
    · exact ⟨fun q _ _ => reg_raise s err q, fun _ _ => rfl, fun _ _ => rfl, fun _ => rfl,
        fun hne => absurd rfl (hne op2), rfl, rfl, rfl, rfl, rfl, memRead_raise s err⟩
  · have hwork := executed_of_effOf heff
    obtain ⟨hrun, hfault, hboot, hparams⟩ := completed_frame heff
    obtain ⟨hvram, hio, hperiph⟩ := hwork.memories_of_storeAddr_eq_none ha
    exact ⟨fun q hf hq => (completed_reg r hf).trans (hwork.reg_eq hq), fun k hk => completed_flag heff hk,
      fun n hn => completed_getLsbD_low heff hn, fun hi => hwork.sp_eq.trans (spAfter_of_ne hi _),
      fun _ => ⟨hrun, hfault⟩, hboot, hperiph, hparams, hvram, hio, memRead_congr hboot hparams hvram hio⟩

/-- Settles O40: a raise changes no register and no memory, and cannot come from a storable address; a completed store
is the one bus write. -/
theorem frameOfStores : Obligations.FrameOfStores := by
  intro i s t addr ha hexec
  obtain ⟨err, herr, rfl⟩ | ⟨r, heff, rfl⟩ := exec_cases hexec
  · refine ⟨fun q _ => reg_raise s err q, rfl, rfl, rfl, fun _ => rfl, fun hstorable => ?_,
      fun other _ => memRead_raise s err other⟩
    obtain ⟨addr', ha', hw⟩ | ⟨op2, rfl⟩ := effOf_error_cases herr
    · cases ha.symm.trans ha'
      obtain ⟨t, ht⟩ := memWrite_of_storable (s := moved s i) s.a hstorable
      cases hw.symm.trans ht
    · cases ha
  · have hwork := executed_of_effOf heff
    obtain ⟨hrun, hfault, hboot, hparams⟩ := completed_frame heff
    obtain ⟨hdirs, -⟩ := effOf_store_ok ha heff
    obtain ⟨-, -, hperiph⟩ := hwork.memories
    refine ⟨fun q hq =>
        (completed_reg_of_unset hdirs q).trans (hwork.reg_eq ((not_mem_regsWritten_of_store ha).mpr hq)),
      hwork.sp_eq.trans (spAfter_of_ne (by rintro v rfl; cases ha) _), hboot, hparams, fun hlt => ?_,
      fun _ => ⟨hrun, hfault⟩, fun other hne => ?_⟩
    · rw [hperiph, periphAfter_of_store ha, hookAfter, if_neg (by omega)]
    · exact (memRead_congr rfl rfl rfl rfl other).trans (hwork.memRead_of_store ha hne)

/-- Settles O41: a raise and a completed instruction both keep them. -/
theorem stepKeepsOverlayAndParameters : Obligations.StepKeepsOverlayAndParameters := by
  intro s t hstep
  obtain ⟨err, rfl⟩ | ⟨i, r, -, heff, rfl⟩ := step_raises_or_completes hstep
  · exact ⟨raise_bootEn s err, raise_params s err⟩
  · obtain ⟨-, -, hboot, hparams⟩ := completed_frame heff
    exact ⟨hboot, hparams⟩

/-- Settles O43: a raise keeps F, and CommitFlags keeps its low nibble. -/
theorem stepKeepsLowNibbleOfF : Obligations.StepKeepsLowNibbleOfF := by
  intro s t n hstep hn
  obtain ⟨err, rfl⟩ | ⟨i, r, -, heff, rfl⟩ := step_raises_or_completes hstep
  · rw [raise_f]
  · exact completed_getLsbD_low heff hn

/-- Settles O44: SP after a completed instruction is `spAfter`, which only LD SP,d16 makes another. -/
theorem onlyLdSpWritesSp : Obligations.OnlyLdSpWritesSp := by
  intro s t hstep hsp
  obtain ⟨err, rfl⟩ | ⟨i, r, hfetch, heff, rfl⟩ := step_raises_or_completes hstep
  · exact absurd (raise_sp s err) hsp
  · have hspAfter := (executed_of_effOf heff).sp_eq
    by_cases hi : ∃ v, i = .ldSpD16 v
    · obtain ⟨v, rfl⟩ := hi
      exact ⟨v, hfetch, hspAfter⟩
    · exact absurd (hspAfter.trans (spAfter_of_ne (not_exists.mp hi) _)) hsp

/-! What a step reads. -/

theorem fetchBytes_congr {s t : State} (hread : ∀ addr, memRead t addr = memRead s addr) (addr : Word) (n : Nat) :
    fetchBytes t addr n = fetchBytes s addr n := by
  induction n generalizing addr with
  | zero => rfl
  | succ n ih => simp only [fetchBytes, hread, ih]

/-- A fetch depends on PC and the bus alone (R103). -/
theorem fetchInstr_congr {s t : State} (hpc : t.pc = s.pc) (hread : ∀ addr, memRead t addr = memRead s addr) :
    fetchInstr t = fetchInstr s := by
  simp only [fetchInstr, hpc, hread, fetchBytes_congr hread]

/-- The state with other contents of what no step reads: SP, `cycles`, the peripheral state, and F but for bit 7. -/
def withUnread (s : State) (sp : Word) (n : Nat) (q : Periph) (f : Byte) : State :=
  { s with sp := sp, cycles := n, periph := q, f := f }

section
variable (s : State) (sp : Word) (n : Nat) (q : Periph) (f : Byte)

theorem fetchInstr_withUnread : fetchInstr (withUnread s sp n q f) = fetchInstr s :=
  fetchInstr_congr rfl fun addr => memRead_congr rfl rfl rfl rfl addr

theorem storeAddr_withUnread (i : Instr) : storeAddr (withUnread s sp n q f) i = storeAddr s i := by
  cases i <;> rfl

/-- Whether the hook fails does not depend on the peripheral state (R68). -/
theorem ioHook_eq_map (p : Params) (addr : Word) (v : Byte) (q' : Periph) :
    ioHook p addr v q = (ioHook p addr v q').map fun _ => Config.ioHook addr v q := by
  unfold ioHook
  split <;> rfl

/-- A write reads nothing of them but the peripheral state, which it hands to the hook. -/
theorem memWrite_withUnread (addr : Word) (v : Byte) :
    memWrite (withUnread s sp n q f) addr v =
      (memWrite s addr v).map fun t => withUnread t sp n (hookAfter addr v q) f := by
  have hboot : (withUnread s sp n q f).bootEn = s.bootEn := rfl
  have hhook : ioHook (withUnread s sp n q f).params addr v (withUnread s sp n q f).periph =
      (ioHook s.params addr v s.periph).map fun _ => Config.ioHook addr v q := ioHook_eq_map q _ addr v s.periph
  obtain ⟨-, -, hsel⟩ | ⟨-, -, hsel⟩ | ⟨-, hlt, hsel⟩ | ⟨hge, -, hsel⟩ | ⟨-, -, -, hsel⟩ := select_cases s.bootEn addr
  case inr.inr.inl =>
    have hafter : hookAfter addr v q = q := if_neg (by omega)
    simp only [memWrite, hboot, hsel, hafter]
    rfl
  case inr.inr.inr.inl =>
    have hafter : hookAfter addr v q = Config.ioHook addr v q := if_pos hge
    simp only [memWrite, hboot, hsel, hafter, hhook]
    cases ioHook s.params addr v s.periph <;> rfl
  all_goals simp only [memWrite, hboot, hsel]; rfl

variable {s f}

theorem pcAfter_withUnread (hz : f.getLsbD 7 = s.f.getLsbD 7) (i : Instr) :
    pcAfter (withUnread s sp n q f) i = pcAfter s i := by
  have hflag : (withUnread s sp n q f).flag .z = s.flag .z := hz
  cases i with
  | jrNzE8 e => simp only [pcAfter, hflag]; rfl
  | _ => rfl

theorem costOf_withUnread (hz : f.getLsbD 7 = s.f.getLsbD 7) (i : Instr) :
    costOf (withUnread s sp n q f) i = costOf s i := by
  have hflag : (withUnread s sp n q f).flag .z = s.flag .z := hz
  cases i with
  | jrNzE8 e => simp only [costOf, hflag]; rfl
  | _ => rfl

/-- The jump alone reads F, its bit 7 (R170). -/
theorem effOf_withUnread (hz : f.getLsbD 7 = s.f.getLsbD 7) (i : Instr) :
    effOf i (pastFetch (withUnread s sp n q f) i.length) =
      (effOf i (pastFetch s i.length)).map fun r =>
        ⟨withUnread r.work (spAfter i sp) n (periphAfter s i q) f, r.dirs, r.cost⟩ := by
  cases ha : storeAddr s i with
  | some addr =>
    have hpast : pastFetch (withUnread s sp n q f) i.length = withUnread (pastFetch s i.length) sp n q f := rfl
    have ha' : storeAddr (withUnread s sp n q f) i = some addr := (storeAddr_withUnread ..).trans ha
    have hacc : (withUnread s sp n q f).a = s.a := rfl
    have hsp : spAfter i sp = sp := spAfter_of_ne (by rintro v rfl; cases ha) sp
    rw [effOf_store ha, effOf_store ha', hpast, memWrite_withUnread, hacc, costOf_withUnread sp n q hz, hsp,
      periphAfter_of_store ha]
    cases memWrite (pastFetch s i.length) addr s.a with
    | error err => rfl
    | ok t => by_cases hi : i = .ldIndHlDecA <;> simp only [Except.map, hi] <;> rfl
  | none =>
    cases i with
    | ldIndBcA | ldIndDeA | ldIndHlDecA | ldhA8A | ldIndCA => cases ha
    | jrNzE8 e =>
      have hlen : (Instr.jrNzE8 e).length = 2 := rfl
      rw [hlen, effOf_jrNzE8, effOf_jrNzE8, moved, pcAfter_withUnread sp n q hz, costOf_withUnread sp n q hz]
      rfl
    | prefixCb op2 =>
      simp only [effOf, effPrefixCb]
      cases secondaryEntry op2 with
      | none => rfl
      | some nested => cases nested; rfl
    | _ => rfl

/-- With other contents of what it does not read, a step ends in the same state but for these, and each that was not
changed before it ends as it would have. -/
theorem step_withUnread {t : State} (hz : f.getLsbD 7 = s.f.getLsbD 7) (h : step s = .next t) :
    ∃ sp' n' q' f', step (withUnread s sp n q f) = .next (withUnread t sp' n' q' f') ∧
      (sp = s.sp → n = s.cycles → q = s.periph → sp' = t.sp ∧ n' = t.cycles ∧ q' = t.periph) ∧
      (f = s.f → f' = t.f) := by
  have hfetch := fetchInstr_withUnread s sp n q f
  obtain ⟨hrunning, ⟨err, herr, rfl⟩ | ⟨i, hi, hexec⟩⟩ := step_cases h
  · exact ⟨sp, n, q, f, step_of_fetch_error hrunning (hfetch.trans herr), fun h1 h2 h3 => ⟨h1, h2, h3⟩, id⟩
  · have heffNew := effOf_withUnread sp n q hz i
    rw [step_of_fetch (s := withUnread s sp n q f) hrunning (hfetch.trans hi), exec_eq_perform]
    obtain ⟨err, heff, rfl⟩ | ⟨r, heff, rfl⟩ := exec_cases hexec
    · rw [heff] at heffNew
      exact ⟨sp, n, q, f, perform_error heffNew, fun h1 h2 h3 => ⟨h1, h2, h3⟩, id⟩
    · rw [heff] at heffNew
      have hwork := executed_of_effOf heff
      obtain ⟨-, -, -, -, hf, hcycles⟩ := effOf_frame heff
      obtain ⟨-, -, hperiph⟩ := hwork.memories
      refine ⟨spAfter i sp, n + r.cost, periphAfter s i q, commitFlags r.dirs f, perform_ok heffNew, ?_, ?_⟩
      · rintro rfl rfl rfl
        exact ⟨hwork.sp_eq.symm, congrArg (· + r.cost) hcycles.symm, hperiph.symm⟩
      · rintro rfl
        exact congrArg (commitFlags r.dirs) hf.symm

end

/-- Settles O46: `step_withUnread` with F as it stands. -/
theorem spCyclesAndPeripheralAreNeverRead : Obligations.SpCyclesAndPeripheralAreNeverRead := by
  intro s t sp n q hstep
  obtain ⟨sp', n', q', f', hnew, -, hf⟩ := step_withUnread sp n q (f := s.f) rfl hstep
  obtain rfl := hf rfl
  exact ⟨_, hnew, rfl⟩

/-- Settles O47: `step_withUnread` with all but F as it stands. -/
theorem onlyZeroFlagIsRead : Obligations.OnlyZeroFlagIsRead := by
  intro s t f hz hstep
  obtain ⟨sp', n', q', f', hnew, hkept, -⟩ := step_withUnread s.sp s.cycles s.periph hz hstep
  obtain ⟨rfl, rfl, rfl⟩ := hkept rfl rfl rfl
  exact ⟨_, hnew, rfl⟩

/-! Writes to single registers, and the values at reset. -/

/-- Settles O1: the read-after-write laws of the register file. -/
theorem registerWriteMasksToEightBits : Obligations.RegisterWriteMasksToEightBits := by
  intro s r v
  refine ⟨?_, fun q hq => reg_writeReg_of_ne s v hq⟩
  rw [reg_writeReg_same, BitVec.toNat_ofNat]

/-- Settles O3: both writes store the number as a 16-bit word. -/
theorem pcAndSpWritesMaskToSixteenBits : Obligations.PcAndSpWritesMaskToSixteenBits := by
  intro s v
  rw [writePc_pc, writeSp_sp, BitVec.toNat_ofNat]
  exact ⟨rfl, rfl⟩

/-- Settles O49: empty memories, blank images, one recognised address, no record. -/
theorem resetMeetsInvariant : Obligations.ResetMeetsInvariant := by
  have himage : ∀ len, Image.wf (blankImage len) := fun len => ⟨Memory.nil_wf, nofun⟩
  exact ⟨⟨Memory.nil_wf, nofun, Memory.nil_wf, nofun⟩, ⟨himage 256, himage 0x4000, by decide, by decide⟩, rfl⟩

/-- Settles O50: the host's reset is the reset state with the parameters of the state before; its empty memories read
as 0. -/
theorem resetValues : Obligations.ResetValues := by
  intro s
  exact ⟨⟨rfl, rfl, rfl, rfl, rfl⟩, rfl, rfl, fun q => by cases q <;> rfl, rfl,
    fun addr hlo hhi => memRead_vram (hostReset s) hlo hhi, fun addr hlo hhi => memRead_io (hostReset s) hlo hhi, rfl⟩

end Sys2Proof.Machine
end

section
/-! PROOFS. The family 20_memory.md: what a read and a write do at every address (R43 to R55), read after write (R47,
R64), the multi-byte interface (R58), the straddling immediate (R57), and what a step does to the read-only images and
to the hook (R54, R67). -/

namespace Sys2Proof.Machine

open Sys2Proof

/-! Reads, region by region. -/

theorem imageByte_of_lt {im : Image} {off : Nat} (h : off < im.len) : imageByte im off = some (im.cells.read off) :=
  if_pos h

theorem imageByte_of_not_lt {im : Image} {off : Nat} (h : ¬ off < im.len) : imageByte im off = none :=
  if_neg h

/-- Under the overlay a read below 0x100 is the boot image's byte, or AddressingError past its end (R50). -/
theorem memRead_boot (s : State) {addr : Word} (hboot : s.bootEn = true) (hlt : addr.toNat < 0x100) :
    memRead s addr =
      if addr.toNat < s.params.bootImage.len then .ok (s.params.bootImage.cells.read addr.toNat)
      else .error (.addressing addr .read) := by
  have hsel : select s.bootEn addr = some (.boot, addr.toNat) := if_pos ⟨hboot, hlt⟩
  by_cases hlen : addr.toNat < s.params.bootImage.len
  · simp only [memRead, hsel, imageByte_of_lt hlen, if_pos hlen]
  · simp only [memRead, hsel, imageByte_of_not_lt hlen, if_neg hlen]

/-- Below 0x4000, outside the overlay, a read is the cartridge's byte, or AddressingError past its end (R45, R50). -/
theorem memRead_cart (s : State) {addr : Word} (hlt : addr.toNat < 0x4000)
    (hout : s.bootEn = true → 0x100 ≤ addr.toNat) :
    memRead s addr =
      if addr.toNat < s.params.cartImage.len then .ok (s.params.cartImage.cells.read addr.toNat)
      else .error (.addressing addr .read) := by
  have hnot : ¬ (s.bootEn = true ∧ addr.toNat < 0x100) := fun ⟨hboot, hlow⟩ => by have := hout hboot; omega
  have hsel : select s.bootEn addr = some (.cart, addr.toNat) := (if_neg hnot).trans (if_pos hlt)
  by_cases hlen : addr.toNat < s.params.cartImage.len
  · simp only [memRead, hsel, imageByte_of_lt hlen, if_pos hlen]
  · simp only [memRead, hsel, imageByte_of_not_lt hlen, if_neg hlen]

theorem memRead_of_select_none {s : State} {addr : Word} (h : select s.bootEn addr = none) :
    memRead s addr = .error (.addressing addr .read) := by
  simp only [memRead, h]

/-- A read at an offset within the selected region's size answers a byte (R42). -/
theorem memRead_ok_of_select {s : State} {addr : Word} {r : Region} {off : Nat}
    (h : select s.bootEn addr = some (r, off)) (hoff : off < storeSize s r) : ∃ v, memRead s addr = .ok v := by
  cases r with
  | boot => exact ⟨s.params.bootImage.cells.read off, by simp only [memRead, h, imageByte_of_lt hoff]⟩
  | cart => exact ⟨s.params.cartImage.cells.read off, by simp only [memRead, h, imageByte_of_lt hoff]⟩
  | vram => exact ⟨s.vram.read off, by simp only [memRead, h]⟩
  | io => exact ⟨s.io.read off, by simp only [memRead, h]⟩

/-! Writes, region by region. -/

section
variable (s : State) {addr : Word} (v : Byte)

/-- Boot image and cartridge are write-protected (R54). -/
theorem memWrite_rom (hlt : addr.toNat < 0x4000) : memWrite s addr v = .error (.writeProtected addr) := by
  obtain ⟨hge, -⟩ | ⟨hge, -⟩ | ⟨-, e⟩ | ⟨hge, -⟩ | ⟨hge, -⟩ := memWrite_cases s addr v
  case inr.inr.inl => exact e
  all_goals omega

theorem memWrite_unmapped (h : ¬ mapped addr) : memWrite s addr v = .error (.addressing addr .write) := by
  obtain ⟨hlo, hhi, -⟩ | ⟨hlo, hhi, -⟩ | ⟨hlt, -⟩ | ⟨-, -, -, e⟩ | ⟨hlo, hhi, -⟩ := memWrite_cases s addr v
  case inr.inr.inr.inl => exact e
  all_goals omega

theorem memWrite_vram (hlo : 0x8000 ≤ addr.toNat) (hhi : addr.toNat < 0xA000) :
    memWrite s addr v = .ok { s with vram := s.vram.write (addr.toNat - 0x8000) v } := by
  obtain ⟨-, -, e⟩ | ⟨hge, -⟩ | ⟨hlt, -⟩ | ⟨-, hout, -⟩ | ⟨hge, -⟩ := memWrite_cases s addr v
  case inl => exact e
  all_goals omega

/-- At an I/O address that the hook recognises a write calls it and stores the byte (R54, R67). -/
theorem memWrite_io (hlo : 0xFF00 ≤ addr.toNat) (hhi : addr.toNat < 0xFF80) (hrec : addr ∈ s.params.ioRecognised) :
    memWrite s addr v = .ok { s with io := s.io.write (addr.toNat - 0xFF00) v,
                                     periph := Config.ioHook addr v s.periph } := by
  obtain ⟨-, hlt, -⟩ | ⟨-, -, -, e⟩ | ⟨hlt, -⟩ | ⟨-, -, hout, -⟩ | ⟨-, -, hnot, -⟩ := memWrite_cases s addr v
  case inr.inl => exact e
  case inr.inr.inr.inr => exact absurd hrec hnot
  all_goals omega

/-- At an I/O address that the hook does not recognise a write raises UnknownRegisterError (R54, R68). -/
theorem memWrite_io_unrecognised (hlo : 0xFF00 ≤ addr.toNat) (hhi : addr.toNat < 0xFF80)
    (hnot : addr ∉ s.params.ioRecognised) : memWrite s addr v = .error (.unknownRegister addr v) := by
  obtain ⟨-, hlt, -⟩ | ⟨-, -, hrec, -⟩ | ⟨hlt, -⟩ | ⟨-, -, hout, -⟩ | ⟨-, -, -, e⟩ := memWrite_cases s addr v
  case inr.inr.inr.inr => exact e
  case inr.inl => exact absurd hrec hnot
  all_goals omega

end

theorem memWrite_of_select_none {s : State} {addr : Word} (v : Byte) (h : select s.bootEn addr = none) :
    memWrite s addr v = .error (.addressing addr .write) := by
  simp only [memWrite, h]

/-- A byte that was written reads back (R47). -/
theorem memRead_memWrite_same {s t : State} {addr : Word} {v : Byte} (h : memWrite s addr v = .ok t) :
    memRead t addr = .ok v := by
  obtain ⟨hlo, hhi, e⟩ | ⟨hlo, hhi, -, e⟩ | ⟨-, e⟩ | ⟨-, -, -, e⟩ | ⟨-, -, -, e⟩ := memWrite_cases s addr v <;>
    rw [e] at h <;> cases h
  · rw [memRead_vram _ hlo hhi, Memory.read_write, if_pos rfl]
  · rw [memRead_io _ hlo hhi, Memory.read_write, if_pos rfl]

/-! The statements about single transactions. -/

/-- Settles O6: `select_cases`, each case against the chain of ranges. -/
theorem selectRoutesEveryAddress : Obligations.SelectRoutesEveryAddress := by
  intro bootEn addr
  obtain ⟨hboot, hlt, e⟩ | ⟨hlt, hout, e⟩ | ⟨hlo, hhi, e⟩ | ⟨hlo, hhi, e⟩ | ⟨hge, hnotVram, hnotIo, e⟩ :=
    select_cases bootEn addr
  · rw [e, if_pos ⟨hboot, by omega⟩]
  · rw [e, if_neg fun ⟨hboot, hle⟩ => by have := hout hboot; omega, if_pos (by omega)]
  · rw [e, if_neg (by omega), if_neg (by omega), if_neg (by omega), if_pos (by omega)]
  · rw [e, if_neg (by omega), if_neg (by omega), if_neg (by omega), if_neg (by omega), if_neg (by omega),
      if_pos (by omega)]
  · obtain hlow | hhigh := hnotVram
    · rw [e, if_neg (by omega), if_neg (by omega), if_pos (by omega)]
    · obtain hmid | htop := hnotIo
      · rw [e, if_neg (by omega), if_neg (by omega), if_neg (by omega), if_neg (by omega), if_pos (by omega)]
      · rw [e, if_neg (by omega), if_neg (by omega), if_neg (by omega), if_neg (by omega), if_neg (by omega),
          if_neg (by omega)]

/-- Settles O7: the read of each region in the order of `select_cases`. -/
theorem readAnswersByAddress : Obligations.ReadAnswersByAddress := by
  intro s addr
  obtain ⟨hboot, hlt, -⟩ | ⟨hlt, hout, -⟩ | ⟨hlo, hhi, -⟩ | ⟨hlo, hhi, -⟩ | ⟨hge, hnotVram, hnotIo, hsel⟩ :=
    select_cases s.bootEn addr
  · exact (memRead_boot s hboot hlt).trans (if_pos ⟨hlt, hboot⟩).symm
  · have hnot : ¬ (addr.toNat < 0x100 ∧ s.bootEn = true) := fun ⟨hlow, hboot⟩ => by have := hout hboot; omega
    exact (memRead_cart s hlt hout).trans ((if_neg hnot).trans (if_pos hlt)).symm
  · rw [memRead_vram s hlo hhi, if_neg (by omega), if_neg (by omega), if_pos ⟨hlo, hhi⟩]
  · rw [memRead_io s hlo hhi, if_neg (by omega), if_neg (by omega), if_neg (by omega), if_pos ⟨hlo, hhi⟩]
  · rw [memRead_of_select_none hsel, if_neg (by omega), if_neg (by omega), if_neg (by omega), if_neg (by omega)]

/-- Settles O8: the write of each region. -/
theorem writeLegalityByAddress : Obligations.WriteLegalityByAddress := by
  intro s addr v
  exact ⟨memWrite_rom s v, fun hlo hhi => memWrite_unmapped s v (by omega), memWrite_vram s v,
    fun hlo hhi => memWrite_unmapped s v (by omega), memWrite_io s v, memWrite_io_unrecognised s v,
    fun hge => memWrite_unmapped s v (by omega), fun t => memRead_memWrite_same⟩

/-- Settles O9: the written address and the others. -/
theorem readAfterWrite : Obligations.ReadAfterWrite :=
  fun _ _ _ _ h => ⟨memRead_memWrite_same h, fun _ hne => memRead_memWrite_of_ne h hne⟩

/-! The multi-byte interface. -/

theorem add_ofNat_succ (addr : Word) (k : Nat) :
    addr + BitVec.ofNat 16 (k + 1) = addr + 1#16 + BitVec.ofNat 16 k := by
  rw [BitVec.add_assoc, BitVec.ofNat_add, BitVec.add_comm (BitVec.ofNat 16 k)]

/-- `codeAt`, byte by byte. -/
theorem codeAt_iff {s : State} {addr : Word} {vs : List Byte} : codeAt s addr vs = true ↔
    ∀ k (h : k < vs.length), memRead s (addr + BitVec.ofNat 16 k) = .ok vs[k] := by
  induction vs generalizing addr with
  | nil => exact ⟨fun _ _ h => (nomatch h), fun _ => rfl⟩
  | cons v rest ih =>
    simp only [codeAt, Bool.and_eq_true, beq_iff_eq, ih]
    constructor
    · rintro ⟨hhead, htail⟩ (_ | k) hk
      · simpa using hhead
      · rw [add_ofNat_succ]
        exact htail k (Nat.lt_of_succ_lt_succ hk)
    · intro hall
      refine ⟨by simpa using hall 0 (Nat.succ_pos _), fun k hk => ?_⟩
      rw [← add_ofNat_succ]
      exact hall (k + 1) (Nat.succ_lt_succ hk)

/-- The bytes a fetch answers are the one-byte reads at ascending addresses (R103). -/
theorem fetchBytes_eq_ok_iff {s : State} {addr : Word} {n : Nat} {vs : List Byte} : fetchBytes s addr n = .ok vs ↔
    vs.length = n ∧ ∀ k (h : k < vs.length), memRead s (addr + BitVec.ofNat 16 k) = .ok vs[k] := by
  rw [← codeAt_iff]
  refine ⟨fetchBytes_ok, ?_⟩
  rintro ⟨rfl, hcode⟩
  exact fetchBytes_of_codeAt hcode

/-- A fetch answers bytes where each of its addresses can be read. -/
theorem exists_fetchBytes_ok {s : State} {addr : Word} {n : Nat}
    (h : ∀ k < n, ∃ v, memRead s (addr + BitVec.ofNat 16 k) = .ok v) : ∃ vs, fetchBytes s addr n = .ok vs := by
  choose f hf using h
  exact ⟨List.ofFn fun k : Fin n => f k k.isLt, fetchBytes_eq_ok_iff.mpr ⟨List.length_ofFn, by simpa using hf⟩⟩

section
variable {s : State} {addr : Word} {r : Region} {off : Nat}

/-- The addresses after a selected one and before its region's end select the same region, within its size
(R41, R42). -/
theorem select_add_of_lt_regionEnd (h : select s.bootEn addr = some (r, off)) {k : Nat}
    (hk : addr.toNat + k < regionEnd s addr) :
    ∃ off', select s.bootEn (addr + BitVec.ofNat 16 k) = some (r, off') ∧ off' < storeSize s r := by
  have hat := (regionAt_iff h k).mpr hk
  have haddr : BitVec.ofNat 16 (addr.toNat + k) = addr + BitVec.ofNat 16 k := by
    rw [BitVec.ofNat_add, BitVec.ofNat_toNat, BitVec.setWidth_eq]
  simp only [regionAt, haddr] at hat
  split at hat
  · split at hat
    · cases hat
    · split at hat
      · cases hat
        exact ⟨_, ‹_›, ‹_›⟩
      · cases hat
  · cases hat

theorem memRead_ok_of_lt_regionEnd (h : select s.bootEn addr = some (r, off)) {k : Nat}
    (hk : addr.toNat + k < regionEnd s addr) : ∃ v, memRead s (addr + BitVec.ofNat 16 k) = .ok v := by
  obtain ⟨off', hsel, hoff⟩ := select_add_of_lt_regionEnd h hk
  exact memRead_ok_of_select hsel hoff

/-- The region's end depends on the selected region, the overlay and the parameters alone. -/
theorem regionEnd_congr {t : State} {addr' : Word} {off' : Nat} (hboot : t.bootEn = s.bootEn)
    (hparams : t.params = s.params) (h : select s.bootEn addr = some (r, off))
    (h' : select s.bootEn addr' = some (r, off')) : regionEnd t addr' = regionEnd s addr := by
  rw [regionEnd_of_select h, regionEnd_of_select (hboot.symm ▸ h'), hparams]
  cases r <;> rfl

theorem select_eq_none_of_not_mapped (s : State) (h : ¬ mapped addr) : select s.bootEn addr = none := by
  cases hsel : select s.bootEn addr with
  | none => rfl
  | some p => exact absurd ((mapped_iff_select s addr).mpr ⟨p.1, p.2, hsel⟩) h

end

section
variable {s : State} {addr : Word} {n : Nat}

theorem busReadMany_of_select_none (n : Nat) (h : select s.bootEn addr = none) :
    busReadMany s addr n = .raised (.addressing addr .read) := by
  simp only [busReadMany, h]

/-- A multi-byte read of one byte is the bus read (R58). -/
theorem busReadMany_one_of_ok {v : Byte} (h : memRead s addr = .ok v) : busReadMany s addr 1 = .done [v] := by
  cases hsel : select s.bootEn addr with
  | none => cases h.symm.trans (memRead_of_select_none hsel)
  | some p => rw [busReadMany_eq hsel]; simp [served, fetchBytes, h]

theorem busReadMany_one_of_error {err : FatalError} (h : memRead s addr = .error err) :
    busReadMany s addr 1 = .raised err := by
  cases hsel : select s.bootEn addr with
  | none => rw [busReadMany_of_select_none 1 hsel, memRead_error h]
  | some p => rw [busReadMany_eq hsel]; simp [served, fetchBytes, h]

/-- A read that its region holds answers the bytes of the fetch (R58). -/
theorem busReadMany_eq_done_of_fetchBytes (hm : mapped addr) (hle : addr.toNat + n ≤ regionEnd s addr) {vs : List Byte}
    (hf : fetchBytes s addr n = .ok vs) : busReadMany s addr n = .done vs := by
  obtain ⟨r, off, hsel⟩ := (mapped_iff_select s addr).mp hm
  rw [busReadMany_eq hsel, if_pos (served_of_le hsel hle), hf]

/-- Within the region of a mapped address every fetch answers bytes. -/
theorem exists_fetchBytes_ok_of_mapped (hm : mapped addr) (hle : addr.toNat + n ≤ regionEnd s addr) :
    ∃ vs, fetchBytes s addr n = .ok vs := by
  obtain ⟨r, off, hsel⟩ := (mapped_iff_select s addr).mp hm
  exact exists_fetchBytes_ok fun k hk => memRead_ok_of_lt_regionEnd hsel (by omega)

theorem fetchBytes_of_busReadMany_eq_done {vs : List Byte} (h : busReadMany s addr n = .done vs) :
    fetchBytes s addr n = .ok vs := by
  cases hsel : select s.bootEn addr with
  | none => cases h.symm.trans (busReadMany_of_select_none n hsel)
  | some p =>
    rw [busReadMany_eq hsel] at h
    split at h
    · split at h <;> cases h
      assumption
    · cases h

theorem busReadMany_eq_refused (hm : mapped addr) (hn : 2 ≤ n) (hlt : regionEnd s addr < addr.toNat + n) :
    busReadMany s addr n = .refused := by
  obtain ⟨r, off, hsel⟩ := (mapped_iff_select s addr).mp hm
  rw [busReadMany_eq hsel, if_neg fun hserved => by have := (served_iff hsel hn).mp hserved; omega]

end

/-- Settles O10: a multi-byte read is `fetchBytes` where it is served, and `fetchBytes` is the one-byte reads. -/
theorem multiByteReadIsBytewiseOrRefused : Obligations.MultiByteReadIsBytewiseOrRefused := by
  intro s addr n
  refine ⟨fun v => busReadMany_one_of_ok, fun err => busReadMany_one_of_error,
    fun hnot => busReadMany_of_select_none n (select_eq_none_of_not_mapped s hnot), fun hm hle => ⟨?_, ?_⟩,
    fun vs hdone => fetchBytes_eq_ok_iff.mp (fetchBytes_of_busReadMany_eq_done hdone), busReadMany_eq_refused⟩
  · obtain ⟨vs, hf⟩ := exists_fetchBytes_ok_of_mapped hm hle
    exact ⟨vs, busReadMany_eq_done_of_fetchBytes hm hle hf⟩
  · exact fun vs hlen hall => busReadMany_eq_done_of_fetchBytes hm hle (fetchBytes_eq_ok_iff.mpr ⟨hlen, hall⟩)

section
variable {s : State} {addr : Word} {v : Byte}

theorem busWriteMany_of_select_none (vs : List Byte) (h : select s.bootEn addr = none) :
    busWriteMany s addr vs = (.raised (.addressing addr .write), s) := by
  simp only [busWriteMany, h]

theorem busWriteMany_one_of_ok {t : State} (h : memWrite s addr v = .ok t) :
    busWriteMany s addr [v] = (.done (), t) := by
  cases hsel : select s.bootEn addr with
  | none => cases h.symm.trans (memWrite_of_select_none v hsel)
  | some p => rw [busWriteMany_eq hsel]; simp [served, writeBytes, h]

/-- A served write whose first byte fails raises its error and changes nothing (R58). -/
theorem busWriteMany_of_error {r : Region} {off : Nat} {rest : List Byte} {err : FatalError}
    (hsel : select s.bootEn addr = some (r, off)) (hserved : served s r addr (rest.length + 1) = true)
    (h : memWrite s addr v = .error err) : busWriteMany s addr (v :: rest) = (.raised err, s) := by
  rw [busWriteMany_eq hsel, List.length_cons, if_pos hserved]
  simp only [writeBytes, h]

theorem busWriteMany_one_of_error {err : FatalError} (h : memWrite s addr v = .error err) :
    busWriteMany s addr [v] = (.raised err, s) := by
  cases hsel : select s.bootEn addr with
  | none =>
    cases h.symm.trans (memWrite_of_select_none v hsel)
    exact busWriteMany_of_select_none [v] hsel
  | some p => exact busWriteMany_of_error hsel rfl h

/-- The rest of a write that its region holds is again such a write, at the next address (R58). -/
theorem busWriteMany_cons_of_ok {t : State} {rest : List Byte} (hm : mapped addr) (hne : rest ≠ [])
    (hle : addr.toNat + (rest.length + 1) ≤ regionEnd s addr) (h : memWrite s addr v = .ok t) :
    busWriteMany s addr (v :: rest) = busWriteMany t (addr + 1#16) rest := by
  obtain ⟨r, off, hsel⟩ := (mapped_iff_select s addr).mp hm
  obtain ⟨-, -, -, -, -, -, -, -, -, -, hboot, -, -, -, hparams⟩ := memWrite_frame h
  have hpos : 0 < rest.length := List.length_pos_iff.mpr hne
  obtain ⟨off', hnext, -⟩ := select_add_of_lt_regionEnd hsel (k := 1) (by omega)
  have hnextT : select t.bootEn (addr + 1#16) = some (r, off') := hboot.symm ▸ hnext
  have hnat : (addr + 1#16).toNat ≤ addr.toNat + 1 := by
    rw [BitVec.toNat_add]
    exact Nat.mod_le _ _
  have hend : regionEnd t (addr + 1#16) = regionEnd s addr := regionEnd_congr hboot hparams hsel hnext
  rw [busWriteMany_eq hsel, List.length_cons, if_pos (served_of_le hsel hle), busWriteMany_eq hnextT,
    if_pos (served_of_le hnextT (by omega))]
  simp only [writeBytes, h]

theorem busWriteMany_eq_refused {vs : List Byte} (hm : mapped addr) (hn : 2 ≤ vs.length)
    (hlt : regionEnd s addr < addr.toNat + vs.length) : busWriteMany s addr vs = (.refused, s) := by
  obtain ⟨r, off, hsel⟩ := (mapped_iff_select s addr).mp hm
  rw [busWriteMany_eq hsel, if_neg fun hserved => by have := (served_iff hsel hn).mp hserved; omega]

end

/-- Settles O52: the one-byte write, the first byte of a longer one that its region holds, and the overrun. -/
theorem multiByteWriteIsBytewiseOrRefused : Obligations.MultiByteWriteIsBytewiseOrRefused := by
  intro s addr v rest
  refine ⟨fun t => busWriteMany_one_of_ok, fun err => busWriteMany_one_of_error,
    fun hnot => busWriteMany_of_select_none _ (select_eq_none_of_not_mapped s hnot),
    fun hm hne hle => ⟨fun t => busWriteMany_cons_of_ok hm hne hle, fun err herr => ?_⟩,
    fun hm hne hlt => busWriteMany_eq_refused hm (Nat.succ_le_succ (List.length_pos_iff.mpr hne)) hlt⟩
  obtain ⟨r, off, hsel⟩ := (mapped_iff_select s addr).mp hm
  exact busWriteMany_of_error hsel (served_of_le hsel hle) herr

/-! Steps and the bus. -/

/-- The instruction fetched where its bytes stand at PC (R103, R105). -/
theorem fetchInstr_of_codeAt {s : State} {op : Byte} {operands rest : List Byte} {o : Op} {i : Instr}
    (hcode : codeAt s s.pc (op :: operands) = true) (hentry : primaryEntry op = some o)
    (hlen : operands.length = o.format.length - 1) (hdecode : decode (op :: operands) = .ok (i, rest)) :
    fetchInstr s = .ok i := by
  simp only [codeAt, Bool.and_eq_true, beq_iff_eq] at hcode
  obtain ⟨hop, hoperands⟩ := hcode
  simp only [fetchInstr, hop, hentry, ← hlen, fetchBytes_of_codeAt hoperands, hdecode]

/-- LD BC,d16, executed: both registers, PC and the cost (R120). -/
theorem exec_ldBcD16 (s : State) (v : Word) : exec (.ldBcD16 v) s =
    .next { s with b := hiByte v, c := loByte v, pc := s.pc + 3#16, cycles := s.cycles + s.params.costs.ldBc } := rfl

/-- Settles O27: each of the three bytes is routed on its own, the last one to the cartridge. -/
theorem straddlingImmediateReadsBothImages : Obligations.StraddlingImmediateReadsBothImages := by
  intro s lo hi hrun hboot hpc hbootLen hcartLen hop hlo hhi
  have hread0 : memRead s 0x00FE#16 = .ok 0x01#8 := by
    rw [memRead_boot s hboot (by decide), if_pos (Nat.lt_of_lt_of_le (by decide) hbootLen)]
    exact congrArg _ hop
  have hread1 : memRead s 0x00FF#16 = .ok lo := by
    rw [memRead_boot s hboot (by decide), if_pos (Nat.lt_of_lt_of_le (by decide) hbootLen)]
    exact congrArg _ hlo
  have hread2 : memRead s 0x0100#16 = .ok hi := by
    rw [memRead_cart s (by decide) fun _ => by decide, if_pos (Nat.lt_of_lt_of_le (by decide) hcartLen)]
    exact congrArg _ hhi
  have hcode : codeAt s s.pc [0x01#8, lo, hi] = true := by simp [codeAt, hpc, hread0, hread1, hread2]
  have hfetch : fetchInstr s = .ok (.ldBcD16 (joinBytes hi lo)) := fetchInstr_of_codeAt hcode rfl rfl rfl
  rw [step_of_fetch hrun hfetch, exec_ldBcD16, hiByte_join, loByte_join, hpc]
  rfl

/-- Settles O32: a store that does not raise is one bus write of A, which reads back. -/
theorem storeIsSeenByTheNextFetch : Obligations.StoreIsSeenByTheNextFetch := by
  intro s t i addr _ ha hexec hrunning
  obtain ⟨err, -, rfl⟩ | ⟨r, heff, rfl⟩ := exec_cases hexec
  · cases hrunning
  · obtain ⟨-, w, hw, hwork⟩ := effOf_store_ok ha heff
    calc memRead (completed r) addr = memRead r.work addr := memRead_congr rfl rfl rfl rfl addr
      _ = memRead w addr := by rw [hwork, memRead_afterWrite]
      _ = .ok s.a := memRead_memWrite_same hw

/-- Settles O42: below 0x4000 a read sees the overlay and the images alone, which every step keeps. -/
theorem stepNeverChangesRom : Obligations.StepNeverChangesRom := by
  intro s t addr hstep hlt
  obtain ⟨hboot, hparams⟩ := stepKeepsOverlayAndParameters s t hstep
  exact memRead_congr_at hboot hparams (fun _ _ => by omega) (fun _ _ => by omega)

/-- Settles O45: a raise and an instruction that stores nothing keep the I/O block and `periph`; a store makes one bus
write, to video RAM or to a recognised I/O address. -/
theorem atMostOneHookCallPerStep : Obligations.AtMostOneHookCallPerStep := by
  intro s t hstep
  obtain ⟨err, rfl⟩ | ⟨i, r, hfetch, heff, rfl⟩ := step_raises_or_completes hstep
  · exact .inl ⟨raise_io s err, raise_periph s err⟩
  cases ha : storeAddr s i with
  | none =>
    obtain ⟨-, hio, hperiph⟩ := (executed_of_effOf heff).memories_of_storeAddr_eq_none ha
    exact .inl ⟨hio, hperiph⟩
  | some addr =>
    obtain ⟨-, w, hw, hwork⟩ := effOf_store_ok ha heff
    obtain ⟨-, -, -, hio, hperiph⟩ := afterWrite_frame i addr w
    rw [← hwork] at hio hperiph
    obtain ⟨-, -, e⟩ | ⟨hlo, hhi, hrec, e⟩ | ⟨-, e⟩ | ⟨-, -, -, e⟩ | ⟨-, -, -, e⟩ :=
      memWrite_cases (moved s i) addr s.a <;> cases hw.symm.trans e
    · exact .inl ⟨hio, hperiph⟩
    · exact .inr ⟨i, addr, hfetch, ha, hlo, hhi, hrec, hio, hperiph⟩

end Sys2Proof.Machine
end

section
/-! PROOFS. The family 30_encoding.md: which opcodes the two tables register (R85, R86, R88), and that the
decoder and the encoder are inverse to each other on the well-formed instructions (R81, R90). -/

namespace Sys2Proof.Machine

open Sys2Proof

/-! The two tables. -/

theorem mem_primaryTable_of_primaryEntry {op : Byte} {o : Op} (h : primaryEntry op = some o) :
    (op, o) ∈ primaryTable := by
  obtain ⟨before, after, htable, -⟩ := List.lookup_eq_some_iff.mp h
  simp [htable]

/-- No entry stands twice in the primary table, so one opcode alone resolves to it (R85). -/
theorem primaryEntry_injective {op op' : Byte} {o : Op} (h : primaryEntry op = some o)
    (h' : primaryEntry op' = some o) : op = op' := by
  have hnodup : (primaryTable.map Prod.snd).Nodup := by decide
  exact congrArg Prod.fst (List.inj_on_of_nodup_map hnodup (mem_primaryTable_of_primaryEntry h)
    (mem_primaryTable_of_primaryEntry h') rfl)

/-- The keys of the primary table are the registered opcodes (R85, R89). -/
theorem primaryEntry_isSome_iff (op : Byte) : (primaryEntry op).isSome = true ↔ op ∈ registeredOpcodes := by
  have hperm : (primaryTable.map Prod.fst).Perm registeredOpcodes := by decide
  rw [← hperm.mem_iff, primaryEntry, List.lookup_isSome_iff, List.mem_map]
  simp only [beq_iff_eq, eq_comm (a := op)]

/-- The secondary table has one key (R86). -/
theorem secondaryEntry_isSome_iff (op2 : Byte) : (secondaryEntry op2).isSome = true ↔ op2 = 0x7C#8 := by
  simp [secondaryEntry, secondaryTable, List.lookup_isSome_iff]

theorem primaryEntry_eq_none_of_not_mem {op : Byte} (h : op ∉ registeredOpcodes) : primaryEntry op = none :=
  Option.not_isSome_iff_eq_none.mp (mt (primaryEntry_isSome_iff op).mp h)

theorem secondaryEntry_eq_none_of_ne {op2 : Byte} (h : op2 ≠ 0x7C#8) : secondaryEntry op2 = none :=
  Option.not_isSome_iff_eq_none.mp (mt (secondaryEntry_isSome_iff op2).mp h)

/-- An escaped byte that the secondary table does not register is the escape entry with that byte (R90, R175). -/
theorem escaped_of_ne {op2 : Byte} (h : op2 ≠ 0x7C#8) : escaped op2 = .prefixCb op2 := by
  simp only [escaped, secondaryEntry_eq_none_of_ne h]

/-! Operands: what the decoder reads after the opcode is what the encoder writes after it (R81). -/

section
variable {bytes rest : List Byte} {i : Instr}

theorem take8_eq_ok_iff {mk : Byte → Instr} :
    take8 mk bytes = .ok (i, rest) ↔ ∃ b, mk b = i ∧ b :: rest = bytes := by
  cases bytes <;> simp [take8, eq_comm]

/-- A word operand is its two bytes, low byte first (R56). -/
theorem take16_eq_ok_iff {mk : Word → Instr} :
    take16 mk bytes = .ok (i, rest) ↔ ∃ v, mk v = i ∧ loByte v :: hiByte v :: rest = bytes := by
  constructor
  · intro h
    match bytes, h with
    | lo :: hi :: _, h => cases h; exact ⟨joinBytes hi lo, rfl, by simp⟩
  · rintro ⟨v, rfl, rfl⟩
    simp [take16]

/-- The entry of a well-formed instruction decodes the operand bytes of its encoding to the instruction. -/
theorem decodeEntry_encode_tail (hwf : i.wf = true) (rest : List Byte) :
    decodeEntry i.op ((encode i).tail ++ rest) = .ok (i, rest) := by
  cases i with
  | ldBcD16 v | ldDeD16 v | ldHlD16 v | ldSpD16 v => exact take16_eq_ok_iff.mpr ⟨v, rfl, rfl⟩
  | prefixCb op2 =>
    have hne : op2 ≠ 0x7C#8 := bne_iff_ne.mp hwf
    exact take8_eq_ok_iff.mpr ⟨op2, escaped_of_ne hne, rfl⟩
  | _ => rfl

/-- What an entry decodes is a well-formed instruction of that entry, and its operand bytes are those that were read. -/
theorem encode_tail_of_decodeEntry {o : Op} (h : decodeEntry o bytes = .ok (i, rest)) :
    i.wf = true ∧ i.op = o ∧ (encode i).tail ++ rest = bytes := by
  cases o with
  | ldBcD16 | ldDeD16 | ldHlD16 | ldSpD16 =>
    obtain ⟨v, rfl, rfl⟩ := take16_eq_ok_iff.mp h
    exact ⟨rfl, rfl, rfl⟩
  | ldBD8 | ldCD8 | ldDD8 | ldED8 | ldHD8 | ldLD8 | ldAD8 | jrNzE8 | ldhA8A =>
    obtain ⟨b, rfl, rfl⟩ := take8_eq_ok_iff.mp h
    exact ⟨rfl, rfl, rfl⟩
  | prefixCb =>
    obtain ⟨op2, rfl, rfl⟩ := take8_eq_ok_iff.mp h
    by_cases hop2 : op2 = 0x7C#8
    · subst hop2
      exact ⟨rfl, rfl, rfl⟩
    · rw [escaped_of_ne hop2]
      exact ⟨bne_iff_ne.mpr hop2, rfl, rfl⟩
  | _ => cases h; exact ⟨rfl, rfl, rfl⟩

end

/-! Whole instructions. -/

/-- An encoding begins with an opcode that resolves to the instruction's entry (R85, R90). -/
theorem exists_opcode_encode (i : Instr) : ∃ op, encode i = op :: (encode i).tail ∧ primaryEntry op = some i.op := by
  cases i <;> exact ⟨_, rfl, rfl⟩

theorem decode_cons_of_primaryEntry {op : Byte} {o : Op} (hentry : primaryEntry op = some o) (bytes : List Byte) :
    decode (op :: bytes) = decodeEntry o bytes := by
  simp only [decode, hentry]

theorem decode_cons_of_primaryEntry_eq_none {op : Byte} (hentry : primaryEntry op = none) (bytes : List Byte) :
    decode (op :: bytes) = .error (.unknownPrimary op) := by
  simp only [decode, hentry]

/-- Settles O13: the first byte resolves to the entry, and the entry decodes the bytes after it. -/
theorem decodeOfEncode : Obligations.DecodeOfEncode := by
  intro i rest hwf
  obtain ⟨op, hencode, hentry⟩ := exists_opcode_encode i
  calc decode (encode i ++ rest) = decode (op :: ((encode i).tail ++ rest)) := by rw [← List.cons_append, ← hencode]
    _ = decodeEntry i.op ((encode i).tail ++ rest) := decode_cons_of_primaryEntry hentry _
    _ = .ok (i, rest) := decodeEntry_encode_tail hwf rest

/-- Settles O14: the entry that was found reads its instruction's operand bytes, and its opcode is the byte that was
read, since no other resolves to it. -/
theorem encodeOfDecode : Obligations.EncodeOfDecode := by
  intro bytes rest i h
  cases bytes with
  | nil => cases h
  | cons op operands =>
    cases hentry : primaryEntry op with
    | none => cases h.symm.trans (decode_cons_of_primaryEntry_eq_none hentry operands)
    | some o =>
      rw [decode_cons_of_primaryEntry hentry] at h
      obtain ⟨hwf, rfl, htail⟩ := encode_tail_of_decodeEntry h
      obtain ⟨op', hencode, hentry'⟩ := exists_opcode_encode i
      have hop : op' = op := primaryEntry_injective hentry' hentry
      exact ⟨hwf, by rw [hencode, List.cons_append, hop, htail]⟩

/-- Settles O11: the keys of the two tables, and the refusal of an opcode that is no key. -/
theorem tablesRegisterExactlyTheListedOpcodes : Obligations.TablesRegisterExactlyTheListedOpcodes := by
  refine ⟨rfl, by decide, primaryEntry_isSome_iff, secondaryEntry_isSome_iff, fun op rest hnot => ?_⟩
  exact decode_cons_of_primaryEntry_eq_none (primaryEntry_eq_none_of_not_mem hnot) rest

/-- Settles O12: ten closed words decoded and two refused, each by evaluation of the decoder. -/
theorem handWrittenWordsDecode : Obligations.HandWrittenWordsDecode :=
  ⟨rfl, rfl, rfl, rfl, rfl, rfl, rfl, rfl, rfl, rfl, rfl, rfl⟩

end Sys2Proof.Machine
end

section
/-! PROOFS. The family 40_engine.md: when a step is enabled (R101), what it executes (R110), CommitFlags (R108), and that
the step which fetches before it dispatches is the phase-by-phase step of R110. -/

namespace Sys2Proof.Machine

open Sys2Proof

/-! The step of a running machine as one effect that `conclude` ends. -/

/-- Fetch the whole instruction, then run its effect on the working copy with PC past it (R17, R110). -/
def executeFetched (s : State) : Except FatalError Effect :=
  match fetchInstr s with
  | .error err => .error err
  | .ok i => effOf i (pastFetch s i.length)

theorem step_of_running {s : State} (h : s.run = .running) : step s = conclude s (executeFetched s) := by
  cases hfetch : fetchInstr s with
  | error err => rw [step_of_fetch_error h hfetch, executeFetched, hfetch]; rfl
  | ok i => rw [step_of_fetch h hfetch, exec_eq_perform, executeFetched, hfetch]; rfl

/-- A step that has begun always answers a next state: a raise is one too (R8). -/
theorem conclude_next (s : State) (e : Except FatalError Effect) : ∃ t, conclude s e = .next t := by
  cases e with
  | error err => exact ⟨_, rfl⟩
  | ok r => exact ⟨_, rfl⟩

/-! The operand bytes of an entry, fetched before the dispatch and by the effect itself. -/

/-- `Fetch8()` is a bus read at the working copy's PC, which it moves one byte on (R103). -/
theorem fetch8_pastFetch (s : State) (n : Nat) :
    fetch8 (pastFetch s n) = (memRead s (s.pc + BitVec.ofNat 16 n)).map fun v => (v, pastFetch s (n + 1)) := by
  have hread : memRead (pastFetch s n) (pastFetch s n).pc = memRead s (s.pc + BitVec.ofNat 16 n) := rfl
  rw [fetch8, hread]
  cases memRead s (s.pc + BitVec.ofNat 16 n) with
  | error err => rfl
  | ok v => simp [Except.map, pastFetch, BitVec.add_assoc, BitVec.ofNat_add]

/-- The escape's effect is that of the instruction the decoder reads from its second byte (R90, R175). -/
theorem effOf_escaped (op2 : Byte) : effOf (escaped op2) = effPrefixCb op2 := by
  by_cases hop2 : op2 = 0x7C#8
  · subst hop2; rfl
  · rw [escaped_of_ne hop2]; rfl

section
variable {s : State} {op : Byte} {o : Op} (hop : memRead s s.pc = .ok op) (hentry : primaryEntry op = some o)
include hop hentry

/-- An operand byte that cannot be read ends the fetch with its error (R188). -/
theorem executeFetched_of_operand_error {err : FatalError}
    (hbytes : fetchBytes s (s.pc + 1#16) (o.format.length - 1) = .error err) : executeFetched s = .error err := by
  simp only [executeFetched, fetchInstr, hop, hentry, hbytes]

/-- Once the operand bytes are read, what runs is the decoded instruction, past the bytes of its entry's format. -/
theorem executeFetched_of_operands {bytes rest : List Byte} {i : Instr}
    (hbytes : fetchBytes s (s.pc + 1#16) (o.format.length - 1) = .ok bytes)
    (hdecode : decodeEntry o bytes = .ok (i, rest)) : executeFetched s = effOf i (pastFetch s o.format.length) := by
  obtain ⟨-, rfl, -⟩ := encode_tail_of_decodeEntry hdecode
  simp only [executeFetched, fetchInstr, hop, hentry, hbytes, decode_cons_of_primaryEntry hentry, hdecode,
    Instr.length]

/-- An entry without operands (format OP of R81). -/
theorem executeFetched_of_no_operand {i : Instr} (hlen : o.format.length = 1)
    (hdecode : decodeEntry o [] = .ok (i, [])) : executeFetched s = effOf i (pastFetch s 1) := by
  have hbytes : fetchBytes s (s.pc + 1#16) (o.format.length - 1) = .ok [] := by rw [hlen]; rfl
  rw [executeFetched_of_operands hop hentry hbytes hdecode, hlen]

/-- An entry with a one-byte operand (formats OP_D8, OP_A8, OP_E8, CB_OP of R81). -/
theorem executeFetched_of_byte_operand {mk : Byte → Instr} {eff : Byte → State → Except FatalError Effect}
    (hlen : o.format.length = 2) (hdecode : decodeEntry o = take8 mk)
    (heff : ∀ v, effOf (mk v) = eff v) : executeFetched s = withFetch8 eff (pastFetch s 1) := by
  cases hread : memRead s (s.pc + 1#16) with
  | error err =>
    rw [executeFetched_of_operand_error (err := err) hop hentry (by simp [hlen, fetchBytes, hread])]
    simp [withFetch8, fetch8_pastFetch, hread, Except.map]
  | ok v =>
    have hbytes : fetchBytes s (s.pc + 1#16) (o.format.length - 1) = .ok [v] := by simp [hlen, fetchBytes, hread]
    rw [executeFetched_of_operands hop hentry hbytes (by rw [hdecode]; rfl), hlen, heff]
    simp [withFetch8, fetch8_pastFetch, hread, Except.map]

/-- An entry with a two-byte operand, low byte first (format OP_D16 of R81): either read may fail, the low one first. -/
theorem executeFetched_of_word_operand {mk : Word → Instr} {eff : Word → State → Except FatalError Effect}
    (hlen : o.format.length = 3) (hdecode : decodeEntry o = take16 mk)
    (heff : ∀ v, effOf (mk v) = eff v) : executeFetched s = withFetch16 eff (pastFetch s 1) := by
  have hnext : s.pc + 1#16 + 1#16 = s.pc + 2#16 := BitVec.add_assoc _ _ _
  cases hlo : memRead s (s.pc + 1#16) with
  | error err =>
    rw [executeFetched_of_operand_error (err := err) hop hentry (by simp [hlen, fetchBytes, hlo])]
    simp [withFetch16, fetch16, fetch8_pastFetch, hlo, Except.map]
  | ok lo =>
    cases hhi : memRead s (s.pc + 2#16) with
    | error err =>
      rw [executeFetched_of_operand_error (err := err) hop hentry (by simp [hlen, fetchBytes, hlo, hnext, hhi])]
      simp [withFetch16, fetch16, fetch8_pastFetch, hlo, hhi, Except.map]
    | ok hi =>
      have hbytes : fetchBytes s (s.pc + 1#16) (o.format.length - 1) = .ok [lo, hi] := by
        simp [hlen, fetchBytes, hlo, hnext, hhi]
      rw [executeFetched_of_operands hop hentry hbytes (by rw [hdecode]; rfl), hlen, heff]
      simp [withFetch16, fetch16, fetch8_pastFetch, hlo, hhi, Except.map]

/-- Each primary entry: its Init and Execute, with their own operand fetches, are the effect of the instruction fetched
whole (R105 to R107). -/
theorem executeFetched_eq_effEntry : executeFetched s = effEntry o (pastFetch s 1) := by
  cases o with
  | ldBcD16 | ldDeD16 | ldHlD16 | ldSpD16 =>
    exact executeFetched_of_word_operand hop hentry rfl rfl fun _ => rfl
  | ldBD8 | ldCD8 | ldDD8 | ldED8 | ldHD8 | ldLD8 | ldAD8 | jrNzE8 | ldhA8A =>
    exact executeFetched_of_byte_operand hop hentry rfl rfl fun _ => rfl
  | prefixCb => exact executeFetched_of_byte_operand hop hentry rfl rfl effOf_escaped
  | ldIndBcA | ldIndDeA | ldIndHlDecA | ldIndCA | incB | incC | incD | incE | incH | incL | incA | xorA =>
    exact executeFetched_of_no_operand hop hentry rfl rfl

end

/-- Fetch and Resolve are the same in both forms; the entry that was found does the rest. -/
theorem phases_eq_executeFetched (s : State) : phases s = executeFetched s := by
  cases hop : memRead s s.pc with
  | error err => simp only [phases, fetch8, executeFetched, fetchInstr, hop]
  | ok op =>
    cases hentry : primaryEntry op with
    | none => simp only [phases, fetch8, executeFetched, fetchInstr, hop, hentry]
    | some o => simp only [phases, fetch8, executeFetched_eq_effEntry hop hentry, hop, hentry]

/-! The instruction at PC. -/

/-- An encoding has the length of its table entry (R80). -/
theorem encode_length (i : Instr) : (encode i).length = i.length := by cases i <;> rfl

/-- A well-formed instruction whose bytes stand at PC is the one that is fetched (R103, R105). -/
theorem fetchInstr_of_codeAt_encode {s : State} {i : Instr} (hwf : i.wf = true)
    (hcode : codeAt s s.pc (encode i) = true) : fetchInstr s = .ok i := by
  obtain ⟨op, hencode, hentry⟩ := exists_opcode_encode i
  have hdecode : decode (encode i) = .ok (i, []) := by simpa using decodeOfEncode i [] hwf
  have hlen : (encode i).tail.length = i.op.format.length - 1 := by rw [List.length_tail, encode_length, Instr.length]
  rw [hencode] at hcode hdecode
  exact fetchInstr_of_codeAt hcode hentry hlen hdecode

/-! The obligations. -/

/-- Settles O17: both steps conclude one effect in a running machine, and neither exists in a faulted one. -/
theorem stepIsThePhaseByPhaseStep : Obligations.StepIsThePhaseByPhaseStep := by
  intro s
  cases hrun : s.run with
  | faulted => simp only [step_of_faulted hrun, phaseStep, hrun]
  | running => simp only [step_of_running hrun, phaseStep, hrun, phases_eq_executeFetched]

/-- Settles O5: flag by flag and on the low nibble; the escape with 0x7C runs the effect of BIT 7,H by definition. -/
theorem commitFlagsWritesExactlyTheDirectives : Obligations.CommitFlagsWritesExactlyTheDirectives := by
  intro ds f
  have hflag := getFlag_commitFlags ds f
  exact ⟨hflag .z, hflag .n, hflag .h, hflag .c, fun _ hlow => getLsbD_commitFlags_low ds f hlow,
    fun _ => rfl⟩

/-- Settles O16: a running machine concludes its step with a next state, a faulted one answers `halted`. -/
theorem stepIsEnabledExactlyWhenRunning : Obligations.StepIsEnabledExactlyWhenRunning := by
  intro s
  cases hrun : s.run with
  | faulted => simp [step_of_faulted hrun]
  | running =>
    obtain ⟨t, hnext⟩ := conclude_next s (executeFetched s)
    simp [step_of_running hrun, hnext]

/-- Settles O15: the fetch answers the instruction, and a step executes what it fetched. -/
theorem stepRunsTheDecodedInstruction : Obligations.StepRunsTheDecodedInstruction :=
  fun _ _ hrun hwf hcode => step_of_fetch hrun (fetchInstr_of_codeAt_encode hwf hcode)

end Sys2Proof.Machine
end

section
/-! PROOFS. The family 41_load_immediate.md. A well-formed instruction is fetched as its encoding, whatever it is: its bytes
at PC make the step execute it, and the first of them that cannot be read ends the step (R110, R183, R188). -/

namespace Sys2Proof.Machine

open Sys2Proof

/-- A byte of an encoding that cannot be read, where those before it stand at PC, ends the fetch with its error: the
opcode by itself, an operand byte once the opcode has resolved to the instruction's entry (R188). -/
theorem fetchInstr_error_of_codeAt {s : State} {i : Instr} {pre post : List Byte} {v : Byte} {err : FatalError}
    (hbytes : encode i = pre ++ v :: post) (hpre : codeAt s s.pc pre = true)
    (herr : memRead s (s.pc + BitVec.ofNat 16 pre.length) = .error err) : fetchInstr s = .error err := by
  cases pre with
  | nil =>
    have hop : memRead s s.pc = .error err := by simpa using herr
    simp only [fetchInstr, hop]
  | cons op operands =>
    obtain ⟨op', hencode, hentry⟩ := exists_opcode_encode i
    obtain ⟨rfl, htail⟩ : op = op' ∧ operands ++ v :: post = (encode i).tail :=
      List.cons.inj (hbytes.symm.trans hencode)
    have hlen : i.op.format.length - 1 = operands.length + (post.length + 1) := by
      simpa [encode_length, Instr.length] using (congrArg List.length htail).symm
    simp only [codeAt, Bool.and_eq_true, beq_iff_eq] at hpre
    obtain ⟨hop, hoperands⟩ := hpre
    rw [List.length_cons, add_ofNat_succ] at herr
    simp only [fetchInstr, hop, hentry, hlen, fetchBytes_error post.length hoperands herr]

/-- Every well-formed instruction is fetched as its encoding, from every state. -/
theorem fetchedAs_encode {i : Instr} (hwf : i.wf = true) (s : State) : FetchedAs i (encode i) s := by
  refine ⟨rfl, fun hrun hcode => stepRunsTheDecodedInstruction s i hrun hwf hcode, ?_⟩
  intro hrun pre v post err hbytes hpre herr
  obtain rfl := memRead_error herr
  exact step_of_fetch_error hrun (fetchInstr_error_of_codeAt hbytes hpre herr)

/-- Settles O24: the effect is `exec_ldBcD16`, the default table's entry is 12, and the bytes are the encoding. -/
theorem ldBcImmediate : Obligations.LdBcImmediate := by
  intro s v
  refine ⟨exec_ldBcD16 s v, fun hcosts => ?_, fetchedAs_encode rfl s⟩
  have hcost : s.params.costs.ldBc = 12 := congrArg CycleTable.ldBc hcosts
  rw [exec_ldBcD16, hcost]

end Sys2Proof.Machine
end

section
/-! PROOFS. The family 42_store.md: what the five stores do, by the address they store to (R145). -/

namespace Sys2Proof.Machine

open Sys2Proof

section
variable {s : State} {i : Instr} {addr : Word}

/-- The bus write of a store at a storable address: A is in memory, PC is past the instruction, and no cycle has been
added yet (R55, R145). -/
theorem memWrite_of_storable_eq_stored (len : Nat) (h : storable s addr) :
    memWrite (pastFetch s len) addr s.a = .ok (stored s addr len 0) := by
  obtain ⟨hlo, hhi⟩ | ⟨hlo, hhi, hrec⟩ := h
  · rw [memWrite_vram (pastFetch s len) _ hlo hhi, stored, if_pos ⟨hlo, hhi⟩, Nat.add_zero]
  · rw [memWrite_io (pastFetch s len) _ hlo hhi hrec, stored, if_neg (by omega), Nat.add_zero]

/-- The bus write of a store raises what `storeError` says: the branches of its table are those of the bus (R54, R68,
R145). -/
theorem memWrite_of_storeError {err : FatalError} (len : Nat) (h : storeError s addr = some err) :
    memWrite (pastFetch s len) addr s.a = .error err := by
  unfold storeError at h
  split_ifs at h with hrom hvram hio hrec <;> cases h
  · exact memWrite_rom _ _ hrom
  · exact memWrite_io_unrecognised _ _ hio.1 hio.2 hrec
  · exact memWrite_unmapped _ _ (by omega)

/-- CommitFlags and Advance after a store: F as it was, the cost added, HL decremented or not (R108, R109). -/
theorem completed_afterWrite_stored (len cost : Nat) :
    completed ⟨afterWrite i addr (stored s addr len 0), .unset, cost⟩ =
      afterWrite i addr (stored s addr len cost) := by
  unfold afterWrite stored
  split <;> split <;> rfl

/-- A store at a storable address completes: A stored, PC and `cycles` moved on, and HL decremented by LD (HL-),A
alone (R140 to R145). -/
theorem exec_of_storable (ha : storeAddr s i = some addr) (h : storable s addr) :
    exec i s = .next (afterWrite i addr (stored s addr i.length (costOf s i))) := by
  have heff : effOf i (pastFetch s i.length) =
      .ok ⟨afterWrite i addr (stored s addr i.length 0), .unset, costOf s i⟩ := by
    rw [effOf_store ha, memWrite_of_storable_eq_stored _ h, afterWrite]
  rw [exec_eq_perform, perform_ok heff, completed_afterWrite_stored]

end

/-- Settles O28: each store at its own address, length and cost; only LD (HL-),A goes on after its bus write. -/
theorem storesComplete : Obligations.StoresComplete := by
  intro s n
  exact ⟨exec_of_storable (i := .ldIndBcA) rfl, exec_of_storable (i := .ldIndDeA) rfl,
    exec_of_storable (i := .ldIndHlDecA) rfl, exec_of_storable (i := .ldhA8A n) rfl,
    exec_of_storable (i := .ldIndCA) rfl, rfl, rfl, rfl⟩

/-- Settles O29: the bus write is all a store's effect can raise on, and a raise keeps the state before the step. -/
theorem storesRaiseByAddress : Obligations.StoresRaiseByAddress := by
  intro s i addr err ha herr
  have heff : effOf i (pastFetch s i.length) = .error err := by
    rw [effOf_store ha, memWrite_of_storeError _ herr]
  rw [exec_eq_perform, perform_error heff, raise]

end Sys2Proof.Machine
end

section
/-! PROOFS. The family 43_alu.md: the half-carry of INC r under the two settings of INC_H_RULE (R150). -/

namespace Sys2Proof.Machine

open Sys2Proof

/-- Under `nibble_carry` the half-carry is the carry out of the low nibble of the old value (R150). -/
theorem incHalfCarry_nibbleCarry (old res : Byte) :
    incHalfCarry .nibbleCarry old res = true ↔ old.toNat % 16 + 1 = 16 := by
  have hmask : (old &&& 0x0F#8).toNat = old.toNat % 16 := by
    rw [BitVec.toNat_and]
    exact Nat.and_two_pow_sub_one_eq_mod old.toNat 4
  rw [incHalfCarry, beq_iff_eq, ← BitVec.toNat_inj, hmask]
  simp

/-- Under `zero_result` the half-carry of an increment is set by one value alone, the one that wraps round (R150). -/
theorem incHalfCarry_zeroResult (old : Byte) :
    incHalfCarry .zeroResult old (old + 1#8) = true ↔ old.toNat = 255 := by
  rw [incHalfCarry, beq_iff_eq]
  bv_omega

/-- The two settings differ on the values with low nibble 0xF, except 0xFF, where both set the flag (R150). -/
theorem incHalfCarry_rules_ne (old : Byte) :
    (incHalfCarry .zeroResult old (old + 1#8) != incHalfCarry .nibbleCarry old (old + 1#8)) =
      decide (old.toNat % 16 = 15 ∧ old.toNat ≠ 255) := by
  rw [Bool.eq_iff_iff, bne_iff_ne, ne_eq, Bool.eq_iff_iff, incHalfCarry_zeroResult, incHalfCarry_nibbleCarry,
    decide_eq_true_iff]
  omega

/-- Settles O34: the differing inputs are 0x0F, 0x1F, …, 0xEF, which are counted. -/
theorem incHalfCarryUnderBothRules : Obligations.IncHalfCarryUnderBothRules := by
  refine ⟨fun _ => rfl, fun old => incHalfCarry_nibbleCarry old _, ?_⟩
  simp only [incHalfCarry_rules_ne, BitVec.toNat_ofNat]
  decide

end Sys2Proof.Machine
end

section
/-! PROOFS. The family 44_jump.md: JR NZ,e8, whose taken branch adds the displacement as two's complement (R170, R171). -/

namespace Sys2Proof.Machine

open Sys2Proof

/-- The target of a taken jump is the integer sum modulo 65536, the displacement read as two's complement (R170, D14). -/
theorem jumpTarget_eq_ofInt (pc : Word) (n : Nat) (e : Byte) :
    jumpTarget (pc + BitVec.ofNat 16 n) e = BitVec.ofInt 16 (pc.toNat + n + e.toInt) := by
  rw [jumpTarget, sext16_eq_signExtend, BitVec.signExtend, BitVec.ofInt_add, BitVec.ofInt_add, BitVec.ofInt_natCast,
    BitVec.ofInt_natCast, BitVec.ofNat_toNat, BitVec.setWidth_eq]

/-- JR NZ,e8, executed: PC and `cycles` by the branch that Z selects, and nothing else (R170, R171). -/
theorem exec_jrNzE8 (s : State) (e : Byte) : exec (.jrNzE8 e) s =
    .next { s with pc := pcAfter s (.jrNzE8 e), cycles := s.cycles + costOf s (.jrNzE8 e) } := by
  rw [exec_eq_perform]
  exact perform_ok (effOf_jrNzE8 s e)

/-- Settles O36: `exec_jrNzE8` at each value of Z, and the bytes are the encoding. -/
theorem jumpRelativeOnNotZero : Obligations.JumpRelativeOnNotZero := by
  intro s e
  refine ⟨fun hz => ?taken, fun hz => ?notTaken, rfl, rfl, fetchedAs_encode rfl s⟩
  case taken =>
    have hflag : s.flag .z = false := hz
    have htarget : pcAfter s (.jrNzE8 e) = BitVec.ofInt 16 (s.pc.toNat + 2 + e.toInt) := by
      rw [pcAfter, if_pos hflag]
      exact jumpTarget_eq_ofInt s.pc 2 e
    rw [exec_jrNzE8, htarget, costOf, if_pos hflag]
  case notTaken =>
    have hflag : ¬ s.flag .z = false := ne_false_of_eq_true hz
    rw [exec_jrNzE8, pcAfter, costOf, if_neg hflag, if_neg hflag]

end Sys2Proof.Machine
end

section
/-! PROOFS. The family 45_prefixed_bit.md: BIT 7,H under the two settings of BIT_NH_RULE, and the escape, which runs it
for the one registered secondary opcode and raises for every other (R175 to R177). -/

namespace Sys2Proof.Machine

open Sys2Proof

/-- CommitFlags of the bit test's directives, under either setting of BIT_NH_RULE (R108, R176). -/
theorem commitFlags_bitDirectives (s : State) :
    commitFlags (bitDirectives s.params.bitNhRule (s.h.getLsbD 7)) s.f = flagsAfterBit s := by
  unfold flagsAfterBit
  cases s.params.bitNhRule with
  | n0h1 => rfl
  | untouched => rfl

/-- BIT 7,H, executed: F, PC and the cost, prefix byte included (R176). -/
theorem exec_bit7H (s : State) : exec .bit7H s =
    .next { s with f := flagsAfterBit s, pc := s.pc + 2#16, cycles := s.cycles + s.params.costs.bit } := by
  rw [← commitFlags_bitDirectives]
  rfl

/-- The escape with the registered secondary opcode is BIT 7,H (R175). -/
theorem exec_prefixCb_registered (s : State) : exec (.prefixCb 0x7C#8) s = exec .bit7H s := rfl

/-- The escape with any other secondary opcode raises on the state before it: nested execution has one level (R177). -/
theorem exec_prefixCb_of_ne (s : State) {op2 : Byte} (h : op2 ≠ 0x7C#8) :
    exec (.prefixCb op2) s = .next (raise s (.unknownOpcode .secondary op2)) := by
  have heff : effOf (.prefixCb op2) (pastFetch s 2) = .error (.unknownOpcode .secondary op2) := by
    simp only [effOf, effPrefixCb, secondaryEntry_eq_none_of_ne h]
  rw [exec_eq_perform]
  exact perform_error heff

/-- Settles O37: the effect is `exec_bit7H`, the default table's entry is 8, and the bytes are the encoding. -/
theorem bitTestSevenOfH : Obligations.BitTestSevenOfH :=
  fun s => ⟨exec_bit7H s, rfl, fetchedAs_encode rfl s⟩

/-- Settles O38: the registered secondary opcode runs BIT 7,H; with another the escape is a well-formed instruction,
fetched as its encoding, that raises. -/
theorem escapeDispatchesOneLevel : Obligations.EscapeDispatchesOneLevel := by
  intro s op2
  refine ⟨?registered, exec_prefixCb_of_ne s, fun hne => ?fetched⟩
  case registered => exact (exec_prefixCb_registered s).trans (exec_bit7H s)
  case fetched =>
    have hwf : (Instr.prefixCb op2).wf = true := bne_iff_ne.mpr hne
    exact fetchedAs_encode hwf s

end Sys2Proof.Machine
end

section
/-! PROOFS. The family 60_exceptions.md: a step of a running machine raises exactly where the table of R183 has a row
(R188), and with it what an unregistered opcode does (R186), what a raise stores (R181, R182), and where a write is
write-protected (R185). -/

namespace Sys2Proof.Machine

open Sys2Proof

/-! Errors of the fetch. -/

/-- An address that the bus cannot read has one error, AddressingError (R184). -/
theorem memRead_eq_error_iff {s : State} {addr : Word} {err : FatalError} :
    memRead s addr = .error err ↔ unreadable s addr ∧ err = .addressing addr .read := by
  constructor
  · exact fun h => ⟨⟨err, h⟩, memRead_error h⟩
  · rintro ⟨⟨err', h⟩, rfl⟩
    rw [h, memRead_error h]

theorem primaryEntry_eq_none_iff {op : Byte} : primaryEntry op = none ↔ op ∉ registeredOpcodes := by
  rw [← primaryEntry_isSome_iff, Option.not_isSome_iff_eq_none]

theorem secondaryEntry_eq_none_iff {op2 : Byte} : secondaryEntry op2 = none ↔ op2 ≠ 0x7C#8 := by
  rw [ne_eq, ← secondaryEntry_isSome_iff, Option.not_isSome_iff_eq_none]

@[simp] theorem fetchBytes_zero (s : State) (addr : Word) : fetchBytes s addr 0 = .ok [] := rfl

/-- A fetch of several bytes raises at the first of them or, once that is read, at a later one (R188). -/
theorem fetchBytes_succ_eq_error_iff {s : State} {addr : Word} {n : Nat} {err : FatalError} :
    fetchBytes s addr (n + 1) = .error err ↔
      memRead s addr = .error err ∨ ∃ v, memRead s addr = .ok v ∧ fetchBytes s (addr + 1#16) n = .error err := by
  cases hread : memRead s addr with
  | error err' => simp [fetchBytes, hread]
  | ok v => cases hrest : fetchBytes s (addr + 1#16) n <;> simp [fetchBytes, hread, hrest]

/-- The operand bytes of a format raise at the first one, where there is one, or at the second one (R81, R188). -/
theorem fetchBytes_operands_eq_error_iff {s : State} {err : FatalError} (fmt : Format) :
    fetchBytes s (s.pc + 1#16) (fmt.length - 1) = .error err ↔
      (1 < fmt.length ∧ memRead s (s.pc + 1#16) = .error err) ∨
      (fmt.length = 3 ∧ ∃ lo, memRead s (s.pc + 1#16) = .ok lo ∧ memRead s (s.pc + 2#16) = .error err) := by
  have hnext : s.pc + 1#16 + 1#16 = s.pc + 2#16 := BitVec.add_assoc _ _ _
  cases fmt with
  | op => simp [Format.length]
  | opD8 | opA8 | opE8 | cbOp => simp [Format.length, fetchBytes_succ_eq_error_iff]
  | opD16 => simp [Format.length, fetchBytes_succ_eq_error_iff, hnext]

/-- An entry decodes the operand bytes of its format, and leaves none over (R81). -/
theorem exists_decodeEntry_eq_ok {o : Op} {bytes : List Byte} (hlen : bytes.length = o.format.length - 1) :
    ∃ i, decodeEntry o bytes = .ok (i, []) := by
  cases o with
  | ldBcD16 | ldDeD16 | ldHlD16 | ldSpD16 =>
    obtain ⟨lo, hi, rfl⟩ := List.length_eq_two.mp hlen
    exact ⟨_, rfl⟩
  | ldBD8 | ldCD8 | ldDD8 | ldED8 | ldHD8 | ldLD8 | ldAD8 | jrNzE8 | ldhA8A | prefixCb =>
    obtain ⟨v, rfl⟩ := List.length_eq_one_iff.mp hlen
    exact ⟨_, rfl⟩
  | ldIndBcA | ldIndDeA | ldIndHlDecA | ldIndCA | incB | incC | incD | incE | incH | incL | incA | xorA =>
    obtain rfl := List.length_eq_zero_iff.mp hlen
    exact ⟨_, rfl⟩

/-! The opcode numbers of the raise table, by the format of the entry they resolve to (R81, R85). -/

section
variable {op : Byte} {o : Op} (hentry : primaryEntry op = some o)
include hentry

theorem mem_immediate_iff :
    op ∈ oneByteImmediate ++ twoByteImmediate ↔ 1 < o.format.length ∧ o.format ≠ .cbOp := by
  have htable : ∀ x ∈ primaryTable,
      (x.1 ∈ oneByteImmediate ++ twoByteImmediate ↔ 1 < x.2.format.length ∧ x.2.format ≠ .cbOp) := by decide
  exact htable _ (mem_primaryTable_of_primaryEntry hentry)

theorem mem_twoByteImmediate_iff : op ∈ twoByteImmediate ↔ o.format.length = 3 := by
  have htable : ∀ x ∈ primaryTable, (x.1 ∈ twoByteImmediate ↔ x.2.format.length = 3) := by decide
  exact htable _ (mem_primaryTable_of_primaryEntry hentry)

theorem eq_escape_iff : op = 0xCB#8 ↔ o.format = .cbOp := by
  have htable : ∀ x ∈ primaryTable, (x.1 = 0xCB#8 ↔ x.2.format = .cbOp) := by decide
  exact htable _ (mem_primaryTable_of_primaryEntry hentry)

end

theorem exists_primaryEntry_of_mem_immediate {op : Byte} (h : op ∈ oneByteImmediate ++ twoByteImmediate) :
    ∃ o, primaryEntry op = some o := by
  have hsub : ∀ x ∈ oneByteImmediate ++ twoByteImmediate, x ∈ registeredOpcodes := by decide
  exact Option.isSome_iff_exists.mp ((primaryEntry_isSome_iff op).mpr (hsub op h))

/-! The rows of the fetch. -/

section
variable {s : State} {op : Byte}

theorem fetchInstr_of_opcode_error {err : FatalError} (h : memRead s s.pc = .error err) :
    fetchInstr s = .error err := by
  simp only [fetchInstr, h]

theorem fetchInstr_of_unregistered (hop : memRead s s.pc = .ok op) (h : op ∉ registeredOpcodes) :
    fetchInstr s = .error (.unknownOpcode .primary op) := by
  simp only [fetchInstr, hop, primaryEntry_eq_none_of_not_mem h]

theorem fetchInstr_of_operand_error {o : Op} {err : FatalError} (hop : memRead s s.pc = .ok op)
    (hentry : primaryEntry op = some o)
    (h : fetchBytes s (s.pc + 1#16) (o.format.length - 1) = .error err) : fetchInstr s = .error err := by
  simp only [fetchInstr, hop, hentry, h]

/-- An operand byte that cannot be read is a row of the table: the secondary opcode, or an immediate's first or second
byte (R183). -/
theorem raiseRow_of_operand_error {o : Op} {err : FatalError} (hop : memRead s s.pc = .ok op)
    (hentry : primaryEntry op = some o)
    (h : fetchBytes s (s.pc + 1#16) (o.format.length - 1) = .error err) : RaiseRow s err := by
  obtain ⟨hlen, hfirst⟩ | ⟨hlen, lo, hlo, hsecond⟩ := (fetchBytes_operands_eq_error_iff o.format).mp h
  · obtain ⟨hunreadable, herr⟩ := memRead_eq_error_iff.mp hfirst
    by_cases hcb : o.format = .cbOp
    · obtain rfl := (eq_escape_iff hentry).mpr hcb
      exact .secondaryFetch hop hunreadable herr
    · exact .firstImmediate op hop ((mem_immediate_iff hentry).mpr ⟨hlen, hcb⟩) hunreadable herr
  · obtain ⟨hunreadable, herr⟩ := memRead_eq_error_iff.mp hsecond
    exact .secondImmediate op lo hop ((mem_twoByteImmediate_iff hentry).mpr hlen) hlo hunreadable herr

/-- Everything a fetch can do: the bytes at PC are a well-formed instruction's, or it raises by a row of the table
(R183, R188). -/
theorem fetch_cases (s : State) :
    (∃ i, i.wf = true ∧ codeAt s s.pc (encode i) = true) ∨ ∃ err, fetchInstr s = .error err ∧ RaiseRow s err := by
  cases hop : memRead s s.pc with
  | error err =>
    obtain ⟨hunreadable, herr⟩ := memRead_eq_error_iff.mp hop
    exact .inr ⟨err, fetchInstr_of_opcode_error hop, .opcodeFetch hunreadable herr⟩
  | ok op =>
    cases hentry : primaryEntry op with
    | none =>
      have hnot := primaryEntry_eq_none_iff.mp hentry
      exact .inr ⟨_, fetchInstr_of_unregistered hop hnot, .resolve op hop hnot rfl⟩
    | some o =>
      cases hbytes : fetchBytes s (s.pc + 1#16) (o.format.length - 1) with
      | error err =>
        exact .inr ⟨err, fetchInstr_of_operand_error hop hentry hbytes, raiseRow_of_operand_error hop hentry hbytes⟩
      | ok bytes =>
        obtain ⟨hlen, hoperands⟩ := fetchBytes_ok hbytes
        obtain ⟨i, hdecode⟩ := exists_decodeEntry_eq_ok hlen
        obtain ⟨hwf, hencode⟩ :=
          encodeOfDecode (op :: bytes) [] i ((decode_cons_of_primaryEntry hentry bytes).trans hdecode)
        rw [List.append_nil] at hencode
        exact .inl ⟨i, hwf, by simp [hencode, codeAt, hop, hoperands]⟩

end

/-! The rows of Execute. -/

/-- A store stands at PC exactly where the opcode there, and for LDH (a8),A the byte after it, give its address: the
bytes that the raise table speaks of are an instruction's (R140 to R144, R183). -/
theorem store_at_pc_iff {s : State} {addr : Word} :
    (∃ i, i.wf = true ∧ storeAddr s i = some addr ∧ codeAt s s.pc (encode i) = true) ↔
      ∃ op operand, memRead s s.pc = .ok op ∧ (op = 0xE0#8 → memRead s (s.pc + 1#16) = .ok operand) ∧
        storeOpcodeAddr s op operand = some addr := by
  constructor
  · rintro ⟨i, -, ha, hcode⟩
    cases i with
    | ldIndBcA | ldIndDeA | ldIndHlDecA | ldIndCA =>
      simp only [encode, codeAt, Bool.and_true, beq_iff_eq] at hcode
      exact ⟨_, 0#8, hcode, fun hop => absurd hop (by decide), ha⟩
    | ldhA8A n =>
      simp only [encode, codeAt, Bool.and_true, Bool.and_eq_true, beq_iff_eq] at hcode
      obtain ⟨hop, hn⟩ := hcode
      exact ⟨_, n, hop, fun _ => hn, ha⟩
    | _ => cases ha
  · rintro ⟨op, operand, hop, hoperand, ha⟩
    unfold storeOpcodeAddr at ha
    split_ifs at ha with hbc hde hhl hhigh hc
    · exact ⟨.ldIndBcA, rfl, ha, by simp [encode, codeAt, hop, hbc]⟩
    · exact ⟨.ldIndDeA, rfl, ha, by simp [encode, codeAt, hop, hde]⟩
    · exact ⟨.ldIndHlDecA, rfl, ha, by simp [encode, codeAt, hop, hhl]⟩
    · exact ⟨.ldhA8A operand, rfl, ha, by simp [encode, codeAt, hop, hoperand hhigh, hhigh]⟩
    · exact ⟨.ldIndCA, rfl, ha, by simp [encode, codeAt, hop, hc]⟩

/-- A bus write of A raises what the table of R145 says for its address. -/
theorem storeError_of_memWrite_error {s w : State} {addr : Word} {err : FatalError} (hparams : w.params = s.params)
    (h : memWrite w addr s.a = .error err) : storeError s addr = some err := by
  unfold storeError
  obtain ⟨-, -, e⟩ | ⟨-, -, -, e⟩ | ⟨hlt, e⟩ | ⟨hge, hvram, hio, e⟩ | ⟨hlo, hhi, hrec, e⟩ :=
    memWrite_cases w addr s.a <;> cases h.symm.trans e
  · rw [if_pos hlt]
  · rw [if_neg (by omega), if_neg (by omega), if_neg (by omega)]
  · rw [if_neg (by omega), if_neg (by omega), if_pos ⟨hlo, hhi⟩, if_neg (hparams ▸ hrec)]

theorem raise_injective (s : State) : Function.Injective (raise s) := by
  intro err err' h
  simpa using congrArg State.fault h

/-- A running machine's instruction that ends in a raise has raised in its effect: a completed one is still RUNNING. -/
theorem effOf_error_of_exec {i : Instr} {s : State} {err : FatalError} (hrun : s.run = .running)
    (h : exec i s = .next (raise s err)) : effOf i (pastFetch s i.length) = .error err := by
  obtain ⟨err', heff, hraise⟩ | ⟨r, heff, hdone⟩ := exec_cases h
  · rwa [raise_injective s hraise]
  · obtain ⟨hkept, -⟩ := completed_frame heff
    cases (congrArg State.run hdone).trans (hkept.trans hrun)

/-- What a well-formed instruction raises is a row of the table: a store's bus write, or the escape's
Resolve (R183). -/
theorem raiseRow_of_exec {i : Instr} {s : State} {err : FatalError} (hrun : s.run = .running) (hwf : i.wf = true)
    (hcode : codeAt s s.pc (encode i) = true) (h : exec i s = .next (raise s err)) : RaiseRow s err := by
  obtain ⟨addr, ha, hwrite⟩ | ⟨op2, rfl⟩ := effOf_error_cases (effOf_error_of_exec hrun h)
  · obtain ⟨op, operand, hop, hoperand, haddr⟩ := store_at_pc_iff.mp ⟨i, hwf, ha, hcode⟩
    exact .store op operand addr hop hoperand haddr (storeError_of_memWrite_error (w := moved s i) rfl hwrite)
  · have hne : op2 ≠ 0x7C#8 := bne_iff_ne.mp hwf
    rw [exec_prefixCb_of_ne s hne, Host.Outcome.next.injEq] at h
    simp only [encode, codeAt, Bool.and_true, Bool.and_eq_true, beq_iff_eq] at hcode
    obtain ⟨hop, hop2⟩ := hcode
    exact .secondaryResolve op2 hop hop2 hne (raise_injective s h).symm

/-! The obligations. -/

/-- Where a row of the table holds, a running machine raises its error: in the fetch, or, for a secondary opcode that was
read and for a store, in the instruction that was fetched (R183). -/
theorem step_of_raiseRow {s : State} {err : FatalError} (hrun : s.run = .running) (h : RaiseRow s err) :
    step s = .next (raise s err) := by
  cases h with
  | opcodeFetch hunreadable herr =>
    exact step_of_fetch_error hrun (fetchInstr_of_opcode_error (memRead_eq_error_iff.mpr ⟨hunreadable, herr⟩))
  | resolve op hop hnot herr => exact herr ▸ step_of_fetch_error hrun (fetchInstr_of_unregistered hop hnot)
  | secondaryFetch hop hunreadable herr =>
    have hread := memRead_eq_error_iff.mpr ⟨hunreadable, herr⟩
    have hbytes := (fetchBytes_operands_eq_error_iff .cbOp).mpr (.inl ⟨by decide, hread⟩)
    exact step_of_fetch_error hrun (fetchInstr_of_operand_error (o := .prefixCb) hop rfl hbytes)
  | firstImmediate op hop hmem hunreadable herr =>
    obtain ⟨o, hentry⟩ := exists_primaryEntry_of_mem_immediate hmem
    obtain ⟨hlen, -⟩ := (mem_immediate_iff hentry).mp hmem
    have hread := memRead_eq_error_iff.mpr ⟨hunreadable, herr⟩
    have hbytes := (fetchBytes_operands_eq_error_iff o.format).mpr (.inl ⟨hlen, hread⟩)
    exact step_of_fetch_error hrun (fetchInstr_of_operand_error hop hentry hbytes)
  | secondImmediate op lo hop hmem hlo hunreadable herr =>
    obtain ⟨o, hentry⟩ := exists_primaryEntry_of_mem_immediate (List.mem_append_right _ hmem)
    have hlen := (mem_twoByteImmediate_iff hentry).mp hmem
    have hread := memRead_eq_error_iff.mpr ⟨hunreadable, herr⟩
    have hbytes := (fetchBytes_operands_eq_error_iff o.format).mpr (.inr ⟨hlen, lo, hlo, hread⟩)
    exact step_of_fetch_error hrun (fetchInstr_of_operand_error hop hentry hbytes)
  | secondaryResolve op2 hop hop2 hne herr =>
    have hcode : codeAt s s.pc (encode (.prefixCb op2)) = true := by simp [encode, escapeOpcode, codeAt, hop, hop2]
    have hwf : (Instr.prefixCb op2).wf = true := bne_iff_ne.mpr hne
    rw [stepRunsTheDecodedInstruction s _ hrun hwf hcode, exec_prefixCb_of_ne s hne, herr]
  | store op operand addr hop hoperand haddr herr =>
    obtain ⟨i, hwf, ha, hcode⟩ := store_at_pc_iff.mpr ⟨op, operand, hop, hoperand, haddr⟩
    rw [stepRunsTheDecodedInstruction s i hrun hwf hcode]
    exact storesRaiseByAddress s i addr err ha herr

/-- Settles O20: a step either raises in its fetch, by a row, or executes the well-formed instruction at PC, which
raises only by a row. -/
theorem stepRaisesExactlyTheTable : Obligations.StepRaisesExactlyTheTable := by
  intro s err hrun
  refine ⟨fun hstep => ?_, step_of_raiseRow hrun⟩
  obtain ⟨i, hwf, hcode⟩ | ⟨err', hfetch, hrow⟩ := fetch_cases s
  · exact raiseRow_of_exec hrun hwf hcode (stepRunsTheDecodedInstruction s i hrun hwf hcode ▸ hstep)
  · rw [step_of_fetch_error hrun hfetch, Host.Outcome.next.injEq] at hstep
    rwa [← raise_injective s hstep]

/-- Settles O21: the two Resolve rows of the table, which `raise` records and nothing more. -/
theorem unregisteredOpcodeHalts : Obligations.UnregisteredOpcodeHalts := by
  intro s op hrun
  constructor
  · intro hop hnone
    exact step_of_raiseRow hrun (.resolve op hop (primaryEntry_eq_none_iff.mp hnone) rfl)
  · intro hop hop2 hnone
    exact step_of_raiseRow hrun (.secondaryResolve op hop hop2 (secondaryEntry_eq_none_iff.mp hnone) rfl)

/-- Settles O31: of the five things a write can do only one answers WriteProtectedError, and of the five ranges of
`select` the two below 0x4000 are boot image and cartridge. -/
theorem writeProtectedExactlyBelow4000 : Obligations.WriteProtectedExactlyBelow4000 := by
  intro s addr v
  refine ⟨⟨fun h => ?_, memWrite_rom s v⟩, ?_⟩
  · obtain ⟨-, -, e⟩ | ⟨-, -, -, e⟩ | ⟨hlt, -⟩ | ⟨-, -, -, e⟩ | ⟨-, -, -, e⟩ := memWrite_cases s addr v
    case inr.inr.inl => exact hlt
    all_goals cases h.symm.trans e
  · obtain ⟨-, hlt, e⟩ | ⟨hlt, -, e⟩ | ⟨hge, -, e⟩ | ⟨hge, -, e⟩ | ⟨hge, -, -, e⟩ := select_cases s.bootEn addr <;>
      simp [e] <;> omega

/-- Settles O19: `code` and `raise` say it by definition. -/
theorem faultCodesAndRecord : Obligations.FaultCodesAndRecord :=
  fun _ _ _ _ _ => ⟨rfl, rfl, rfl, rfl, fun _ => rfl⟩

end Sys2Proof.Machine
end

section
/-! PROOFS. The cost of an instruction: a completed step adds to `cycles` the configured table's entry for what it
fetched (R109, R226), a step that faults nothing (D25). -/

namespace Sys2Proof.Machine

open Sys2Proof

/-- The cost a completed effect reports is the configured table's entry (R109, R226). -/
theorem effOf_cost {i : Instr} {s : State} {r : Effect} (h : effOf i (pastFetch s i.length) = .ok r) :
    r.cost = costOf s i := by
  cases i with
  | ldIndBcA | ldIndDeA | ldIndHlDecA | ldhA8A | ldIndCA =>
    rw [effOf_store rfl] at h
    split at h <;> cases h
    rfl
  | jrNzE8 e => cases (effOf_jrNzE8 s e).symm.trans h; rfl
  | prefixCb => cases effPrefixCb_ok h; rfl
  | _ => cases h; rfl

/-- Advance adds that entry to `cycles`, which no effect has touched before (R109). -/
theorem completed_cycles {i : Instr} {s : State} {r : Effect} (h : effOf i (pastFetch s i.length) = .ok r) :
    (completed r).cycles = s.cycles + costOf s i := by
  obtain ⟨-, -, -, -, -, hcycles⟩ := effOf_frame h
  exact congrArg₂ (· + ·) hcycles (effOf_cost h)

/-- A raise adds nothing to `cycles`, a completed instruction its cost (R109, D25). -/
theorem exec_cycles {i : Instr} {s t : State} (hrunning : s.run = .running) (h : exec i s = .next t) :
    (t.run = .running → t.cycles = s.cycles + costOf s i) ∧ (t.run = .faulted → t.cycles = s.cycles) := by
  obtain ⟨err, -, rfl⟩ | ⟨r, heff, rfl⟩ := exec_cases h
  · exact ⟨nofun, fun _ => raise_cycles s err⟩
  · obtain ⟨hrun, -⟩ := completed_frame heff
    exact ⟨fun _ => completed_cycles heff, fun hfaulted => nomatch hfaulted.symm.trans (hrun.trans hrunning)⟩

/-- Under the default table the entry is the number R226 lists. -/
theorem costOf_eq_listedCost (i : Instr) {s : State} (h : s.params.costs = defaultCosts) :
    costOf s i = listedCost s i := by
  cases i <;> simp only [costOf, h] <;> rfl

/-- Settles O23: a fetch error is a raise, and a step that fetched an instruction is its `exec`. -/
theorem cyclesGrowByTheReportedCost : Obligations.CyclesGrowByTheReportedCost := by
  refine ⟨fun s t hrunning hstep => ?_, fun i s t hrunning hexec => exec_cycles hrunning hexec,
    fun i s hcosts => costOf_eq_listedCost i hcosts⟩
  obtain ⟨-, ⟨err, -, rfl⟩ | ⟨i, hfetch, hexec⟩⟩ := step_cases hstep
  · exact ⟨nofun, fun _ => raise_cycles s err⟩
  · obtain ⟨hcompleted, hfaulted⟩ := exec_cycles hrunning hexec
    exact ⟨fun hrun => ⟨i, hfetch, hcompleted hrun⟩, hfaulted⟩

end Sys2Proof.Machine
end

section
/-! PROOFS. The family 70_reset_and_hazards.md: in which phase the host may act and to what effect (R216, R217), what its
actions keep, and the first fetch after reset (R212, R214). -/

namespace Sys2Proof.Machine

open Sys2Proof

/-! The conditions of the table of R216. -/

theorem betweenSteps_iff {k : Session} :
    k.betweenSteps = true ↔ (k.phase = .released ∨ k.phase = .active) ∧ k.machine.run = .running := by
  simp [Session.betweenSteps]

theorem beforeFirstStep_iff {k : Session} :
    k.beforeFirstStep = true ↔ (k.phase = .held ∨ k.phase = .released) ∧ k.machine.run = .running := by
  simp [Session.beforeFirstStep]

/-- Before release, after the stop and in FAULTED the host is not between steps. -/
theorem not_betweenSteps {k : Session} (h : k.phase = .held ∨ k.phase = .stopped ∨ k.machine.run = .faulted) :
    ¬ k.betweenSteps = true := by
  rw [betweenSteps_iff]
  rintro ⟨hphase, hrun⟩
  obtain hheld | hstopped | hfaulted := h
  · simp [hheld] at hphase
  · simp [hstopped] at hphase
  · cases hrun.symm.trans hfaulted

/-- In the run loop, after the stop and in FAULTED the host is not before the first step. -/
theorem not_beforeFirstStep {k : Session} (h : k.phase = .active ∨ k.phase = .stopped ∨ k.machine.run = .faulted) :
    ¬ k.beforeFirstStep = true := by
  rw [beforeFirstStep_iff]
  rintro ⟨hphase, hrun⟩
  obtain hactive | hstopped | hfaulted := h
  · simp [hactive] at hphase
  · simp [hstopped] at hphase
  · cases hrun.symm.trans hfaulted

/-- The host takes a step only from between two steps (R101, R217). -/
theorem betweenSteps_of_sessionStep {k m : Session} (h : sessionStep k = some m) : k.betweenSteps = true := by
  obtain ⟨hphase, t, hstep, -⟩ := sessionStep_cases h
  obtain ⟨hrun, -⟩ := step_cases hstep
  exact betweenSteps_iff.mpr ⟨hphase, hrun⟩

/-- A poke of a byte reaches the two memories that are state, by their ranges, and no other address (R43, R216). -/
theorem hostPoke_byte (s : State) (addr : Word) (v : Byte) :
    hostPoke s (.byte addr v) =
      if 0x8000 ≤ addr.toNat ∧ addr.toNat < 0xA000 then
        some { s with vram := Memory.write s.vram (addr.toNat - 0x8000) v }
      else if 0xFF00 ≤ addr.toNat ∧ addr.toNat < 0xFF80 then
        some { s with io := Memory.write s.io (addr.toNat - 0xFF00) v }
      else none := by
  obtain ⟨-, hlt, hsel⟩ | ⟨hlt, -, hsel⟩ | ⟨hlo, hhi, hsel⟩ | ⟨hlo, hhi, hsel⟩ | ⟨hge, hvram, hio, hsel⟩ :=
    select_cases s.bootEn addr <;> simp only [hostPoke, hsel]
  case inr.inr.inl => rw [if_pos ⟨hlo, hhi⟩]
  case inr.inr.inr.inl => rw [if_neg (by omega), if_pos ⟨hlo, hhi⟩]
  all_goals rw [if_neg (by omega), if_neg (by omega)]

/-- Settles O53: each clause is the row of `hostAct` where its condition holds or fails. -/
theorem hostActsWhenAllowed : Obligations.HostActsWhenAllowed := by
  intro k
  refine ⟨fun x hheld hlegal => if_pos ⟨hheld, hlegal⟩, fun x hnot => if_neg ?notLoadable, rfl, rfl,
    fun hphase hrun => ?between, fun hnot => ?notBetween, fun hphase hrun => ?before,
    fun hnot p => if_neg (not_beforeFirstStep hnot)⟩
  case notLoadable =>
    rintro ⟨hheld, hlegal⟩
    obtain hne | hillegal := hnot
    · exact hne hheld
    · cases hlegal.symm.trans hillegal
  case between =>
    have hbetween := betweenSteps_iff.mpr ⟨hphase, hrun⟩
    exact ⟨if_pos hbetween, fun v => if_pos hbetween⟩
  case notBetween =>
    have hbetween := not_betweenSteps hnot
    refine ⟨if_neg hbetween, ?_, fun v => if_neg hbetween⟩
    exact Option.eq_none_iff_forall_ne_some.mpr fun m hstep => hbetween (betweenSteps_of_sessionStep hstep)
  case before =>
    have hpoke (p : Poke) : hostAct k (.poke p) = (hostPoke k.machine p).map fun t => { k with machine := t } :=
      if_pos (beforeFirstStep_iff.mpr ⟨hphase, hrun⟩)
    refine ⟨fun r v => hpoke _, fun v => hpoke _, fun v => hpoke _, fun addr v => ?_⟩
    rw [hpoke, hostPoke_byte]
    split_ifs <;> rfl

/-! What the host's actions keep. -/

/-- Reset meets the invariant under every legal configuration (R34, R210). -/
theorem inv_resetWith {p : Params} (h : Params.wf p) : Inv (State.resetWith p) :=
  ⟨⟨Memory.nil_wf, nofun, Memory.nil_wf, nofun⟩, h, rfl⟩

/-- A poke of one byte within a memory's size, whatever the byte, keeps the memory canonical and within its size. -/
theorem Memory.wf_within_of_poke {m m' : Memory} {bound : Nat} (hwf : Memory.wf m) (hin : Memory.within bound m)
    (h : m' = m ∨ ∃ off v, off < bound ∧ m' = m.write off v) : Memory.wf m' ∧ Memory.within bound m' := by
  obtain rfl | ⟨off, v, hoff, hwrite⟩ := h
  · exact ⟨hwf, hin⟩
  · exact Memory.wf_within_of_write hwf hin (.inr ⟨off, hoff, hwrite⟩)

/-- A poke of a running machine keeps the invariant: it writes at most one byte of memory, within its size, and there
is no fault record whose pc would have to follow PC. -/
theorem inv_hostPoke {s t : State} {p : Poke} (hrunning : s.run = .running) (h : hostPoke s p = some t)
    (hinv : Inv s) : Inv t := by
  obtain ⟨⟨hvwf, hvin, hiwf, hiin⟩, hparams, hfault⟩ := hinv
  obtain ⟨-, hparams', hrun, hfault', -, -, hvram, hio⟩ := hostPoke_frame h
  have hnone : t.fault = none := hfault'.trans ((faultOk_iff_of_running hrunning).mp hfault)
  obtain ⟨hvwf', hvin'⟩ := Memory.wf_within_of_poke hvwf hvin hvram
  obtain ⟨hiwf', hiin'⟩ := Memory.wf_within_of_poke hiwf hiin hio
  exact ⟨⟨hvwf', hvin', hiwf', hiin'⟩, hparams'.symm ▸ hparams,
    (faultOk_iff_of_running (hrun.trans hrunning)).mpr hnone⟩

/-- Every allowed action of the host keeps the invariant (R216). -/
theorem inv_hostAct {k m : Session} {a : HostAction} (h : hostAct k a = some m) (hinv : Inv k.machine) :
    Inv m.machine := by
  obtain ⟨x, -, -, hlegal, rfl⟩ | ⟨-, rfl⟩ | ⟨-, rfl⟩ | ⟨-, -, rfl⟩ | ⟨v, -, -, rfl⟩ | ⟨p, t, -, hbefore, hpoke, rfl⟩ :=
    hostAct_cases h
  · obtain ⟨hmem, -, hfault⟩ := hinv
    exact ⟨hmem, HostLoad.params_wf hlegal, hfault⟩
  · obtain ⟨-, hparams, -⟩ := hinv
    exact inv_resetWith hparams
  · exact hinv
  · exact hinv
  · exact hinv
  · obtain ⟨-, hrunning⟩ := beforeFirstStep_iff.mp hbefore
    exact inv_hostPoke hrunning hpoke hinv

/-- Settles O55: action by action, and a step under the host is a step. -/
theorem hostKeepsInvariant : Obligations.HostKeepsInvariant := by
  rintro k m hinv (hstep | ⟨a, hact⟩)
  · obtain ⟨-, t, hnext, rfl⟩ := sessionStep_cases hstep
    exact stepKeepsInvariant k.machine t hinv hnext
  · exact inv_hostAct hact hinv

/-- Settles O56: in FAULTED there is no step, a stop, a change of `boot_en` and a poke are not allowed, and a load
touches the parameters alone. -/
theorem onlyResetLeavesFaulted : Obligations.OnlyResetLeavesFaulted := by
  intro k m hfaulted hnext
  have hbetween := not_betweenSteps (k := k) (.inr (.inr hfaulted))
  have hbefore := not_beforeFirstStep (k := k) (.inr (.inr hfaulted))
  obtain hstep | ⟨a, hne, hact⟩ := hnext
  · exact absurd (betweenSteps_of_sessionStep hstep) hbetween
  · obtain ⟨x, -, -, -, rfl⟩ | ⟨hreset, -⟩ | ⟨-, rfl⟩ | ⟨-, hallowed, -⟩ | ⟨v, -, hallowed, -⟩ | ⟨p, t, -, hallowed, -⟩ :=
      hostAct_cases hact
    · exact ⟨hfaulted, rfl⟩
    · exact absurd hreset hne
    · exact ⟨hfaulted, rfl⟩
    · exact absurd hallowed hbetween
    · exact absurd hallowed hbetween
    · exact absurd hallowed hbefore

/-! The first fetch. -/

/-- After reset a read at PC is of the boot image's first byte, where there is one (R33, R50, R212). -/
theorem memRead_pc_afterReset {s : State} (h : AfterReset s) :
    memRead s s.pc =
      if 0 < s.params.bootImage.len then .ok (s.params.bootImage.cells.read 0)
      else .error (.addressing 0#16 .read) := by
  obtain ⟨hpc, hboot, -⟩ := h
  rw [hpc]
  exact memRead_boot s hboot (by decide)

/-- Settles O51: the overlay is on and PC is 0, so the boot image answers the opcode's fetch. -/
theorem firstFetchIsTheBootImage : Obligations.FirstFetchIsTheBootImage := by
  intro s hreset
  have hread := memRead_pc_afterReset hreset
  refine ⟨fun hempty => ?_, fun hlen => by rw [hread, if_pos hlen]⟩
  obtain ⟨-, -, hrun, -⟩ := hreset
  rw [if_neg (by omega)] at hread
  exact step_of_fetch_error hrun (fetchInstr_of_opcode_error hread)

end Sys2Proof.Machine
end

section
/-! PROOFS. The instructions that are one effect over a register: the loads of 41_load_immediate.md sections 2 and 3, the
increments and XOR A of 43_alu.md, each effect run once for every register; and the bytes of the stores of 42_store.md. -/

namespace Sys2Proof.Machine

open Sys2Proof

/-- LD rr,d16 into any pair (R120 to R122, R131). -/
theorem perform_effLdPair (p : Pair) (v : Word) (s : State) :
    perform 3 (effLdPair p v) s =
      .next { s.setPair p v with pc := s.pc + 3#16, cycles := s.cycles + costLdPair p s } := by
  cases p <;> rfl

/-- LD SP,d16 (R123, R131). -/
theorem perform_effLdSp (v : Word) (s : State) :
    perform 3 (effLdSp v) s = .next { s with sp := v, pc := s.pc + 3#16, cycles := s.cycles + costLdSp s } := rfl

/-- LD r,d8 into any register (R124 to R132). -/
theorem perform_effLdReg (r : Reg8) (v : Byte) (s : State) :
    perform 2 (effLdReg r v) s =
      .next { s.setReg r v with pc := s.pc + 2#16, cycles := s.cycles + costLdReg s } := by
  cases r <;> rfl

/-- CommitFlags of the increment's directives, under either setting of INC_H_RULE (R108, R150). -/
theorem commitFlags_incDirectives (s : State) (old : Byte) :
    commitFlags (incDirectives s.params.incHRule old (old + 1#8)) s.f = flagsAfterInc s old := by
  unfold flagsAfterInc
  cases s.params.incHRule with
  | zeroResult => rfl
  | nibbleCarry => rfl

/-- INC r of any register but F (R150). -/
theorem perform_effInc {r : Reg8} (hr : r ≠ .f) (s : State) :
    perform 1 (effInc r) s =
      .next { s.setReg r (s.reg r + 1#8) with
        f := flagsAfterInc s (s.reg r), pc := s.pc + 1#16, cycles := s.cycles + costInc s } := by
  rw [← commitFlags_incDirectives]
  cases r with
  | f => exact absurd rfl hr
  | _ => rfl

/-- CommitFlags of the directives for the result 0 sets Z, clears N, H and C and keeps the low nibble (R108, R158). -/
theorem commitFlags_xorDirectives_zero (f : Byte) :
    commitFlags (xorDirectives 0#8) f = 0x80#8 ||| (f &&& 0x0F#8) := by
  apply BitVec.eq_of_getLsbD_eq
  intro n hn
  rw [getLsbD_commitFlags]
  interval_cases n <;> simp [xorDirectives]

/-- XOR A, executed: any accumulator xor itself is 0 (R158). -/
theorem exec_xorA (s : State) : exec .xorA s = .next { s with
    a := 0#8, f := 0x80#8 ||| (s.f &&& 0x0F#8), pc := s.pc + 1#16, cycles := s.cycles + s.params.costs.xorA } := by
  have heff : effOf .xorA (pastFetch s 1) =
      .ok ⟨(pastFetch s 1).setReg .a 0#8, xorDirectives 0#8, s.params.costs.xorA⟩ := by
    simp only [effOf, effXorA, BitVec.xor_self, costXor]
  rw [← commitFlags_xorDirectives_zero, exec_eq_perform]
  exact perform_ok heff

/-- Settles O25: two pairs and SP, the default table's entry, and the three encodings. -/
theorem ldPairImmediate : Obligations.LdPairImmediate := by
  intro s v
  exact ⟨perform_effLdPair .de v s, perform_effLdPair .hl v s, perform_effLdSp v s, rfl,
    fetchedAs_encode rfl s, fetchedAs_encode rfl s, fetchedAs_encode rfl s⟩

/-- Settles O26: the seven registers, the default table's entry, and the seven encodings. -/
theorem ldRegisterImmediate : Obligations.LdRegisterImmediate := by
  intro s v
  exact ⟨perform_effLdReg .b v s, perform_effLdReg .c v s, perform_effLdReg .d v s, perform_effLdReg .e v s,
    perform_effLdReg .h v s, perform_effLdReg .l v s, perform_effLdReg .a v s, rfl,
    fetchedAs_encode rfl s, fetchedAs_encode rfl s, fetchedAs_encode rfl s, fetchedAs_encode rfl s,
    fetchedAs_encode rfl s, fetchedAs_encode rfl s, fetchedAs_encode rfl s⟩

/-- Settles O30: every store is well-formed, and the bytes are its encoding. -/
theorem storesAreFetched : Obligations.StoresAreFetched := by
  intro s n
  exact ⟨fetchedAs_encode rfl s, fetchedAs_encode rfl s, fetchedAs_encode rfl s, fetchedAs_encode rfl s,
    fetchedAs_encode rfl s⟩

/-- Settles O33: the seven registers, the default table's entry, and the seven encodings. -/
theorem incRegister : Obligations.IncRegister := by
  intro s
  exact ⟨perform_effInc (r := .b) nofun s, perform_effInc (r := .c) nofun s, perform_effInc (r := .d) nofun s,
    perform_effInc (r := .e) nofun s, perform_effInc (r := .h) nofun s, perform_effInc (r := .l) nofun s,
    perform_effInc (r := .a) nofun s, rfl,
    fetchedAs_encode rfl s, fetchedAs_encode rfl s, fetchedAs_encode rfl s, fetchedAs_encode rfl s,
    fetchedAs_encode rfl s, fetchedAs_encode rfl s, fetchedAs_encode rfl s⟩

/-- Settles O35: the effect is `exec_xorA`, the default table's entry is 4, and the byte is the encoding. -/
theorem xorAClears : Obligations.XorAClears :=
  fun s => ⟨exec_xorA s, rfl, fetchedAs_encode rfl s⟩

end Sys2Proof.Machine
end
